-- ==== Sys2Proof/Word.lean ====
section
/-! DEFINITION. The fixed-width values of CSUM (00_scope.md rule R5 and the table under it). All are unsigned. -/

namespace Sys2Proof

/-- A buffer byte, 8 bits (`BYTE_W`), also the width of the opcode field. -/
abbrev Byte := BitVec 8

/-- A summed word or a result, 16 bits (`WORD_W`). -/
abbrev Half := BitVec 16

/-- `ACC`, a command word or `RDATA`, 32 bits (`ACC_W`, `CMD_W`, `RDATA_W`). -/
abbrev Word := BitVec 32

/-- `LEN`, `IDX`, the `RUN` operand and the argument field, 24 bits (`LEN_W`). -/
abbrev Length := BitVec 24

/-- `ERR` and `RCODE`, 3 bits (`RCODE_W`). -/
abbrev Code := BitVec 3

end Sys2Proof
end

