-- ==== Sys2Proof/Config.lean ====
section
/-! DEFINITION. What is fixed for the machine. The spec leaves no value of CSUM open (93_implementation_defined.md Part 1),
so no free value stands here; `BUF_AVAIL` and the buffer's bytes are the environment's and stand in State. Of the two
zero-length policies the spec takes `fault` (00_scope.md, table of parameters; 92_eei_decisions.md D10), and
`Sys2Proof.Machine.execRun` is written for it. -/

namespace Sys2Proof.Config

/-- The largest exact sum `ACC` can hold (40_accumulate.md rule R85 (b)). -/
def accMax : Nat := 0xFFFFFFFF

/-- How many times the fold loop may run its body: "the loop body runs 0, 1 or 2 times and never more"
(41_fold_finish.md rule R90). DEDUCED, log 10; safe, since `Sys2Proof.Machine.foldAcc_done` proves the loop is then over. -/
def foldLimit : Nat := 2

/-- What an existing byte of BUF reads as when the memory's list does not name it. DESIGN CHOICE, log 5: a way to write
buffers down, for every buffer content has a list. -/
def unlistedByte : Byte := 0

end Sys2Proof.Config
end

