-- ==== Sys2Proof/Syntax.lean ====
section
/-! DEFINITION. The commands of CSUM (30_encoding.md rules R62 and R63) and the source lines of its assembler
(30_encoding.md rules R69 to R71). -/

namespace Sys2Proof

/-- The register numbers of `RDR` (10_state.md rule R26): `0` ACC, `1` STATUS, `2` LEN, `3` IDX. -/
inductive RegNum
  | acc
  | status
  | len
  | idx
deriving DecidableEq, Repr

/-- The seven commands, one constructor per row of spec/opcode_table.json. Each operand has exactly the width of its
field (30_encoding.md rule R63), so every value of this type is well formed. -/
inductive Instr
  /-- `CLR` (40_accumulate.md rule R80). -/
  | clr
  /-- `ADDW imm16` (40_accumulate.md rule R81). -/
  | addw (imm16 : Half)
  /-- `ADDT imm8` (40_accumulate.md rule R82). -/
  | addt (imm8 : Byte)
  /-- `FOLD` (41_fold_finish.md rule R90). -/
  | fold
  /-- `FIN` (41_fold_finish.md rule R91). -/
  | fin
  /-- `RUN len24` (42_run.md rule R100). -/
  | run (len24 : Length)
  /-- `RDR r2` (43_system.md rule R120). -/
  | rdr (r2 : RegNum)
deriving DecidableEq, Repr

/-- A line of assembler source with its operands as the numbers written, in range or not (30_encoding.md rule R69);
`addp` and `compute` are the pseudo-instructions of rules R70 and R71. -/
inductive Line
  | clr
  | addw (v : Nat)
  | addt (v : Nat)
  | fold
  | fin
  | run (v : Nat)
  | rdr (v : Nat)
  /-- `RDR` with its register named, not numbered. -/
  | rdrNamed (r : RegNum)
  /-- The directive `.word v`. -/
  | word (v : Nat)
  | addp (hi lo : Nat)
  | compute (bytes : List Nat)
deriving DecidableEq, Repr

end Sys2Proof
end

