-- ==== Sys2Proof/WellFormed.lean ====
section
/-! DEFINITION. Which source lines are well formed: the operand ranges of 30_encoding.md rules R69, R70 and R71, outside
which a line is an assembly error. An `Instr` needs no check: its operand types are its fields' widths (rule R63), and
"every operand field value is legal" (rule R74). -/

namespace Sys2Proof

/-- The operand ranges of the source lines. -/
def Line.wellFormed : Line → Bool
  | .clr => true
  | .addw v => decide (v ≤ 0xFFFF)
  | .addt v => decide (v ≤ 0xFF)
  | .fold => true
  | .fin => true
  | .run v => decide (v ≤ 0xFFFFFF)
  | .rdr v => decide (v ≤ 3)
  | .rdrNamed _ => true
  | .word v => decide (v ≤ 0xFFFFFFFF)
  | .addp hi lo => decide (hi ≤ 0xFF) && decide (lo ≤ 0xFF)
  | .compute bytes => !bytes.isEmpty && bytes.all fun b => decide (b ≤ 0xFF)

end Sys2Proof
end

