-- ==== Sys2Proof/Decode.lean ====
section
/-! DEFINITION. The decoder of command words, total on every 32-bit word and rejecting by name (30_encoding.md rules R60 to
R66 and R73); the encoder (rule R69: `(OP << 24) | operand`); and the opcode map as the mask and match table of rule R62. -/

namespace Sys2Proof

/-- The seven defined opcodes (30_encoding.md rule R62). -/
inductive Opcode
  | clr
  | addw
  | addt
  | fold
  | fin
  | run
  | rdr
deriving DecidableEq, Repr

/-- The five formats (30_encoding.md rule R61). -/
inductive Format
  | z
  | w
  | b
  | l
  | r
deriving DecidableEq, Repr

/-- Why a word is no command: a reserved `OP` (30_encoding.md rule R64), or a `1` in a bit the format marks `0`
(rule R65). -/
inductive IllegalReason
  | reservedOpcode
  | mustBeZeroSet
deriving DecidableEq, Repr

/-- What the decoder answers. -/
inductive Decoded
  | legal (i : Instr)
  | illegal (why : IllegalReason)
deriving DecidableEq, Repr

/-- `OP = C[31:24]` (30_encoding.md rule R60). -/
def opField (c : Word) : Byte := c.extractLsb' 24 8

/-- `ARG = C[23:0]` (30_encoding.md rule R60). -/
def argField (c : Word) : Length := c.extractLsb' 0 24

/-- The opcode byte of each command (30_encoding.md rule R62). -/
def Opcode.code : Opcode → Byte
  | .clr => 0x01
  | .addw => 0x02
  | .addt => 0x03
  | .fold => 0x04
  | .fin => 0x05
  | .run => 0x06
  | .rdr => 0x07

/-- The opcode a byte names; `0x00` and `0x08` to `0xFF` are reserved (30_encoding.md rule R64). -/
def opcodeOf (op : Byte) : Option Opcode :=
  if op = 0x01 then some .clr
  else if op = 0x02 then some .addw
  else if op = 0x03 then some .addt
  else if op = 0x04 then some .fold
  else if op = 0x05 then some .fin
  else if op = 0x06 then some .run
  else if op = 0x07 then some .rdr
  else none

/-- The format of each command (30_encoding.md rule R62). -/
def Opcode.format : Opcode → Format
  | .clr => .z
  | .addw => .w
  | .addt => .b
  | .fold => .z
  | .fin => .z
  | .run => .l
  | .rdr => .r

/-- The bits of `ARG` that hold the operand; all others must be zero (30_encoding.md rule R61). -/
def Format.operandMask : Format → Length
  | .z => 0x000000
  | .w => 0x00FFFF
  | .b => 0x0000FF
  | .l => 0xFFFFFF
  | .r => 0x000003

/-- The register a 2-bit number names (10_state.md rule R26). -/
def RegNum.ofBits (r2 : BitVec 2) : RegNum :=
  if r2 = 0 then .acc else if r2 = 1 then .status else if r2 = 2 then .len else .idx

/-- The number of a register (10_state.md rule R26). -/
def RegNum.toBits : RegNum → BitVec 2
  | .acc => 0
  | .status => 1
  | .len => 2
  | .idx => 3

/-- The command an opcode and its argument field make, the operand taken directly from `ARG` (30_encoding.md rule R63). -/
def Opcode.instr : Opcode → Length → Instr
  | .clr, _ => .clr
  | .addw, arg => .addw (arg.extractLsb' 0 16)
  | .addt, arg => .addt (arg.extractLsb' 0 8)
  | .fold, _ => .fold
  | .fin, _ => .fin
  | .run, arg => .run arg
  | .rdr, arg => .rdr (RegNum.ofBits (arg.extractLsb' 0 2))

/-- The decoding procedure of 30_encoding.md rule R73: the opcode first, then the must-be-zero bits. It reads no state. -/
def decode (c : Word) : Decoded :=
  match opcodeOf (opField c) with
  | none => .illegal .reservedOpcode
  | some op =>
    if argField c &&& ~~~op.format.operandMask = 0 then .legal (op.instr (argField c))
    else .illegal .mustBeZeroSet

/-- The opcode of a command. -/
def Instr.opcode : Instr → Opcode
  | .clr => .clr
  | .addw _ => .addw
  | .addt _ => .addt
  | .fold => .fold
  | .fin => .fin
  | .run _ => .run
  | .rdr _ => .rdr

/-- The argument field of a command: its operand, right-aligned (30_encoding.md rule R61). -/
def Instr.operand : Instr → Length
  | .clr => 0
  | .addw imm16 => imm16.setWidth 24
  | .addt imm8 => imm8.setWidth 24
  | .fold => 0
  | .fin => 0
  | .run len24 => len24
  | .rdr r2 => r2.toBits.setWidth 24

/-- The word of a command: `(OP << 24) | operand` (30_encoding.md rule R69). -/
def encode (i : Instr) : Word :=
  (i.opcode.code.setWidth 32 <<< 24) ||| i.operand.setWidth 32

/-- One row of the opcode map of 30_encoding.md rule R62. -/
structure Row where
  opcode : Opcode
  matchBits : Word
  mask : Word
deriving DecidableEq, Repr

/-- The opcode map of 30_encoding.md rule R62 (and spec/opcode_table.json). -/
def opcodeTable : List Row :=
  [⟨.clr, 0x01000000, 0xFFFFFFFF⟩,
   ⟨.addw, 0x02000000, 0xFFFF0000⟩,
   ⟨.addt, 0x03000000, 0xFFFFFF00⟩,
   ⟨.fold, 0x04000000, 0xFFFFFFFF⟩,
   ⟨.fin, 0x05000000, 0xFFFFFFFF⟩,
   ⟨.run, 0x06000000, 0xFF000000⟩,
   ⟨.rdr, 0x07000000, 0xFFFFFFFC⟩]

/-- A row selects a word when `(C & mask) == match` (30_encoding.md rule R62). -/
def Row.selects (row : Row) (c : Word) : Bool := c &&& row.mask == row.matchBits

/-- The command word whose low `nbits` bits are those of `w` and whose other bits are zero, bit 0 its least significant
bit (00_scope.md section 4; log 15). A command is one 32-bit number and has no byte order (30_encoding.md rule R72). -/
def tableWord (nbits w : Nat) : Word := BitVec.ofNat 32 (w % 2 ^ nbits)

/-- The command the decoder reads from a word numbered as spec/opcode_table.json numbers it. -/
def decodeTableWord (nbits w : Nat) : Option Instr :=
  match decode (tableWord nbits w) with
  | .legal i => some i
  | .illegal _ => none

end Sys2Proof
end

