-- ==== Sys2Proof/Machine/State.lean ====
section
/-! DEFINITION. The state: CSUM's four registers (10_state.md rule R20) and what stands at its ports, which the spec makes the
environment's (10_state.md rule R33, 92_eei_decisions.md D1, D11) and which the model holds here because a step is one
function of State (log 1, 3, 4, 5). The stops: one fault and two refusals. -/

namespace Sys2Proof.Machine

/-- One response (30_encoding.md rule R67). -/
structure Response where
  rcode : Code
  rdata : Word
deriving DecidableEq, Repr

/-- The buffer space BUF (20_memory.md rules R40, R41): `avail` is `BUF_AVAIL`, the bytes exist at the indices below it;
`cells` lists, by rising index, the bytes that are not `Config.unlistedByte` (log 5). -/
structure Memory where
  avail : Nat
  cells : List Host.Cell
deriving DecidableEq, Repr

/-- What the outside does next at CSUM's ports (log 1). -/
inductive Input
  /-- A command word, during whose execution the environment keeps to its premises: BUF unchanged, every read answered
  (20_memory.md rule R50, 70_reset_and_hazards.md rule R169). -/
  | command (w : Word)
  /-- The reset input, between commands (70_reset_and_hazards.md rule R160). -/
  | reset
  /-- A command word whose execution the reset input abandons after `made` of its buffer reads
  (70_reset_and_hazards.md rule R161, log 9). -/
  | resetDuring (w : Word) (made : Nat)
  /-- The environment binds BUF to these bytes, between commands (20_memory.md rules R50, R51). -/
  | bind (bytes : List Byte)
  /-- The environment writes one byte of BUF, between commands (20_memory.md rule R50, log 6). -/
  | poke (index : Nat) (value : Byte)
  /-- A command word during whose execution the environment makes BUF each of these byte lists in turn, the last one standing at
  the response (93_implementation_defined.md U3, log 7). -/
  | commandRebound (w : Word) (bound : List (List Byte))
  /-- A command word of whose buffer reads the environment answers only the first `answered`
  (93_implementation_defined.md U4, log 8). -/
  | commandUnanswered (w : Word) (answered : Nat)
deriving DecidableEq, Repr

/-- The whole state. -/
structure State where
  /-- `ACC` (10_state.md rule R21). -/
  acc : Word
  /-- `ERR` (10_state.md rule R23). -/
  err : Code
  /-- `LEN` (10_state.md rule R24). -/
  len : Length
  /-- `IDX` (10_state.md rule R25). -/
  idx : Length
  /-- BUF as the environment offers it now (20_memory.md rule R41). -/
  buf : Memory
  /-- What the outside does next, oldest first (log 1). -/
  inputs : List Input
  /-- Every response sent, oldest first (log 3). -/
  sent : List Response
  /-- The index of every buffer read issued, oldest first (log 4). -/
  reads : List Nat
deriving DecidableEq, Repr

/-- CSUM's architectural state alone: "Two states are equal when these four values are equal" (10_state.md rule R20). -/
structure Regs where
  acc : Word
  err : Code
  len : Length
  idx : Length
deriving DecidableEq, Repr

/-- The four registers of a state (10_state.md rule R20). -/
def State.regs (s : State) : Regs := ⟨s.acc, s.err, s.len, s.idx⟩

/-- The named faults at which the model stops. The spec's own faults (60_exceptions.md rule R130) are not here: they are
next states. -/
inductive Fault
  /-- Raised by a step whose input is `commandUnanswered`: `RUN` waits for ever for a read the environment never answers, which
  93_implementation_defined.md U4 calls `stuck`. Safe: the model stops where the hardware hangs. -/
  | readNeverAnswered
deriving DecidableEq, Repr

/-- The named refusals. -/
inductive Refusal
  /-- An instruction without a meaning, by its mnemonic. No arm of `exec` answers it. Safe: nothing follows from it. -/
  | notModelled (mnemonic : String)
  /-- Raised by a step whose input is `commandRebound` when its word is a `RUN` and BUF does not stay as 20_memory.md rule R50
  asks; 93_implementation_defined.md U3 treats it as `refuse`. Safe: nothing is claimed where the spec claims nothing. -/
  | bufferChangedDuringRun
deriving DecidableEq, Repr

/-- The state after reset: the four registers zero (10_state.md rule R31). The ports hold nothing: no byte in BUF (log 5), no
input waiting (log 1), nothing sent (log 3), no read issued (log 4); these four are DESIGN CHOICE. -/
def State.reset : State where
  acc := 0
  err := 0
  len := 0
  idx := 0
  buf := ⟨0, []⟩
  inputs := []
  sent := []
  reads := []

end Sys2Proof.Machine
end

