-- ==== Sys2Proof/Machine/Operands.lean ====
section
/-! DEFINITION. The operand forms: the values the commands add (30_encoding.md rule R63, 20_memory.md rule R44) and the
register views `RDR` reads (10_state.md rule R26). -/

namespace Sys2Proof.Machine

/-- `imm16` is used as `zext_32(imm16)` (30_encoding.md rule R63). -/
def wordOperand (imm16 : Half) : Word := imm16.setWidth 32

/-- A trailing byte is used as `zext_32(imm8) << 8` (30_encoding.md rule R63, 42_run.md rule R104). -/
def trailingOperand (imm8 : Byte) : Word := imm8.setWidth 32 <<< 8

/-- The word of a pair, the byte at the lower index high: `(zext_32(hi) << 8) | zext_32(lo)` (42_run.md rule R100). -/
def pairOperand (hi lo : Byte) : Word := (hi.setWidth 32 <<< 8) ||| lo.setWidth 32

/-- The 32-bit value of a register by number (10_state.md rule R26); `STATUS` is `ERR` in bits 2 to 0. -/
def readReg (r2 : RegNum) (s : State) : Word :=
  match r2 with
  | .acc => s.acc
  | .status => s.err.setWidth 32
  | .len => s.len.setWidth 32
  | .idx => s.idx.setWidth 32

end Sys2Proof.Machine
end

