-- ==== Sys2Proof/Machine/Flags.lean ====
section
/-! DEFINITION. CSUM has no condition codes (10_state.md rule R29). What stands in their place: the overflow check of an addition
(40_accumulate.md rule R85), the fold of the carries kept above bit 15 (00_scope.md rules R10, R11), the complement
(rule R13), the fault codes and the latch test (10_state.md rule R23). -/

namespace Sys2Proof.Machine

/-- The codes of a response, those of the latched faults being also `ERR`'s (30_encoding.md rule R68). -/
inductive FaultCode
  | zeroLength
  | outOfBounds
  | accOverflow
deriving DecidableEq, Repr

/-- The code of a latched fault (30_encoding.md rule R68). -/
def FaultCode.code : FaultCode → Code
  | .zeroLength => 1
  | .outOfBounds => 2
  | .accOverflow => 3

/-- The code `0`, OK (30_encoding.md rule R68). -/
def codeOk : Code := 0

/-- The code `4`, IllegalCommand, never latched (30_encoding.md rule R68). -/
def codeIllegal : Code := 4

/-- A fault is latched: `ERR != 0` (10_state.md rule R23). -/
def latched (s : State) : Bool := s.err != 0

/-- The exact sum of `ACC` and a word when it is at most `0xFFFFFFFF`, nothing otherwise: no wrap and no saturation
(40_accumulate.md rule R85 (b), (c)). -/
def checkedAdd (acc w : Word) : Option Word :=
  if acc.toNat + w.toNat ≤ Config.accMax then some (BitVec.ofNat 32 (acc.toNat + w.toNat)) else none

/-- `zext_32(ACC[15:0]) + zext_32(ACC[31:16])` (41_fold_finish.md rule R90). -/
def foldOnce (acc : Word) : Word :=
  (acc.extractLsb' 0 16).setWidth 32 + (acc.extractLsb' 16 16).setWidth 32

/-- The loop `while ACC[31:16] != 0`, cut after a number of rounds (41_fold_finish.md rule R90). -/
def foldLoop : Nat → Word → Word
  | 0, acc => acc
  | k + 1, acc => if acc.extractLsb' 16 16 = 0 then acc else foldLoop k (foldOnce acc)

/-- The folded accumulator (41_fold_finish.md rule R90). -/
def foldAcc (acc : Word) : Word := foldLoop Config.foldLimit acc

/-- `zext_32((~ACC)[15:0])` (41_fold_finish.md rule R91). -/
def complement16 (acc : Word) : Word := ((~~~acc).extractLsb' 0 16).setWidth 32

end Sys2Proof.Machine
end

