-- ==== Sys2Proof/Machine/Memory.lean ====
section
/-! DEFINITION. BUF: its canonical form, the one read CSUM has (20_memory.md rule R41), and what the environment does to it
(binding and writing, 20_memory.md rules R50, R51). CSUM itself writes no memory (20_memory.md rule R42). -/

namespace Sys2Proof.Machine

/-- The cells from a given index on are in canonical form: indices strictly rising, none at or above `avail`, no byte equal
to what an unlisted index reads as. -/
def Memory.cellsWf (avail : Nat) : Nat → List Host.Cell → Bool
  | _, [] => true
  | from_, (i, b) :: rest =>
    decide (from_ ≤ i) && decide (i < avail) && decide (b ≠ Config.unlistedByte) && Memory.cellsWf avail (i + 1) rest

/-- The canonical form, so that equal buffers are equal data (log 5). -/
def Memory.wf (m : Memory) : Bool := Memory.cellsWf m.avail 0 m.cells

/-- The byte the list gives an index, whether or not the index exists. -/
def Memory.lookup : List Host.Cell → Nat → Byte
  | [], _ => Config.unlistedByte
  | (j, b) :: rest, i => if i = j then b else Memory.lookup rest i

/-- `MemRead(i, 1)`: the byte when `i < BUF_AVAIL`, nothing otherwise (20_memory.md rule R41). -/
def Memory.read (m : Memory) (i : Nat) : Option Byte :=
  if i < m.avail then some (Memory.lookup m.cells i) else none

/-- The bytes of BUF in order: `data[0]` to `data[N-1]` (00_scope.md rule R6). -/
def Memory.bytes (m : Memory) : List Byte := (List.range m.avail).map (Memory.lookup m.cells)

/-- The list with one byte set, kept canonical. -/
def Memory.setCell (i : Nat) (b : Byte) : List Host.Cell → List Host.Cell
  | [] => if b = Config.unlistedByte then [] else [(i, b)]
  | (j, c) :: rest =>
    if i < j then (if b = Config.unlistedByte then (j, c) :: rest else (i, b) :: (j, c) :: rest)
    else if i = j then (if b = Config.unlistedByte then rest else (i, b) :: rest)
    else (j, c) :: Memory.setCell i b rest

/-- The environment writes one byte; at an index that does not exist nothing happens (log 6). -/
def Memory.write (m : Memory) (i : Nat) (b : Byte) : Memory :=
  if i < m.avail then { m with cells := Memory.setCell i b m.cells } else m

/-- The canonical cells of a byte list laid out from an index on. -/
def Memory.cellsFrom : Nat → List Byte → List Host.Cell
  | _, [] => []
  | i, b :: rest =>
    if b = Config.unlistedByte then Memory.cellsFrom (i + 1) rest else (i, b) :: Memory.cellsFrom (i + 1) rest

/-- The buffer that holds exactly these bytes, index 0 first (20_memory.md rule R40). -/
def Memory.ofBytes (bytes : List Byte) : Memory := ⟨bytes.length, Memory.cellsFrom 0 bytes⟩

/-- The premise of 20_memory.md rule R50 for a `RUN n`: `BUF_AVAIL` and the bytes `[0, min(n, N))` are the same. -/
def Memory.sameFor (n : Length) (old new : Memory) : Bool :=
  old.avail == new.avail && (List.range (min n.toNat old.avail)).all fun i => old.read i == new.read i

end Sys2Proof.Machine
end

