-- ==== Sys2Proof/Machine/Ops.lean ====
section
/-! DEFINITION. The shared operations over registers and ports: responding, raising a fault, being refused, clearing, adding to
`ACC`, reading BUF, and the loops of `RUN`. -/

namespace Sys2Proof.Machine

/-- `respond(code, data)`: the one response of a command (30_encoding.md rule R67). -/
def respond (code : Code) (data : Word) (s : State) : State :=
  { s with sent := s.sent ++ [⟨code, data⟩] }

/-- `raise F` for a latched fault: "`ERR <- c`; the response `(c, 0)` is sent; the command ends" (60_exceptions.md rule R131).
This is CSUM's taking of an exception: nothing is saved elsewhere and control goes nowhere (rule R139). -/
def raise (f : FaultCode) (s : State) : State :=
  respond f.code 0 { s with err := f.code }

/-- The registers of the reset state, the ports untouched. It is the effect of `CLR`, of the start of `RUN` and of the reset
input, the only ways to clear a latched fault (10_state.md rule R31, 60_exceptions.md rule R140); CSUM has no
return-from-fault. -/
def clearRegs (s : State) : State :=
  { s with acc := 0, err := 0, len := 0, idx := 0 }

/-- IllegalCommand: "The response `(4, 0)` is sent and that is all" (60_exceptions.md rule R132). -/
def illegalCommand (s : State) : State := respond codeIllegal 0 s

/-- A command refused while a fault is latched answers `(ERR, 0)` and changes nothing (60_exceptions.md rule R133). -/
def refuseLatched (s : State) : State := respond s.err 0 s

/-- A command that is refused while a fault is latched, and has the given effect otherwise (60_exceptions.md rule R133). -/
def unlessLatched (effect : State → State) (s : State) : State :=
  if latched s then refuseLatched s else effect s

/-- Add a word to `ACC` and respond `(0, 0)`, or raise AccOverflow with `ACC` unchanged (40_accumulate.md rules R81, R82,
R85). -/
def addAndRespond (w : Word) (s : State) : State :=
  match checkedAdd s.acc w with
  | none => raise .accOverflow s
  | some acc => respond codeOk 0 { s with acc := acc }

/-- `ACC` replaced by its fold (41_fold_finish.md rule R90). -/
def foldInPlace (s : State) : State := { s with acc := foldAcc s.acc }

/-- Fold and return the folded value (41_fold_finish.md rule R90). -/
def foldAndRespond (s : State) : State :=
  respond codeOk (foldInPlace s).acc (foldInPlace s)

/-- Fold and return the complement, `ACC` left holding the folded sum (41_fold_finish.md rule R91, 42_run.md rule R105). -/
def finishAndRespond (s : State) : State :=
  respond codeOk (complement16 (foldInPlace s).acc) (foldInPlace s)

/-- Where a `RUN` stands: it goes on, or it has ended with a raised fault. -/
inductive Flow
  | go (s : State)
  | ended (s : State)
deriving DecidableEq, Repr

/-- Go on with what follows, unless the command has ended. -/
def Flow.andThen (f : Flow) (rest : State → Flow) : Flow :=
  match f with
  | .go s => rest s
  | .ended s => .ended s

/-- `MemRead(i, 1)` inside `RUN`: the read is issued at the buffer port; the byte goes to what follows, absence raises
InvalidInput(OutOfBounds) (20_memory.md rule R41, 42_run.md rule R106). -/
def readByte (i : Length) (s : State) (rest : Byte → State → Flow) : Flow :=
  let asked := { s with reads := s.reads ++ [i.toNat] }
  match s.buf.read i.toNat with
  | none => .ended (raise .outOfBounds asked)
  | some b => rest b asked

/-- Inside `RUN`: add a word and advance `IDX`, the two together, or raise AccOverflow with neither changed (42_run.md rules
R103, R104, R107). -/
def addAndAdvance (w : Word) (by_ : Length) (s : State) : Flow :=
  match checkedAdd s.acc w with
  | none => .ended (raise .accOverflow s)
  | some acc => .go { s with acc := acc, idx := s.idx + by_ }

/-- One round of the pair loop (42_run.md rule R103). -/
def pairRound (s : State) : Flow :=
  readByte s.idx s fun hi s =>
    readByte (s.idx + 1) s fun lo s =>
      addAndAdvance (pairOperand hi lo) 2 s

/-- The pair loop `while IDX < LEN - 1`, cut after a number of rounds (42_run.md rule R103; log 11). -/
def pairLoop : Nat → State → Flow
  | 0, s => .go s
  | k + 1, s => if s.idx < s.len - 1 then (pairRound s).andThen (pairLoop k) else .go s

/-- The trailing byte, when `LEN[0] = 1` (42_run.md rule R104). -/
def trailingByte (s : State) : Flow :=
  if s.len.getLsbD 0 then
    readByte s.idx s fun b s => addAndAdvance (trailingOperand b) 1 s
  else .go s

/-- The start of `RUN`: the reset state with the operand in `LEN` (42_run.md rule R101). -/
def runStart (len24 : Length) (s : State) : State := { clearRegs s with len := len24 }

/-- From the started state on: the zero-length fault, or the pair loop, the trailing byte and the finish (42_run.md rules R102
to R105). `LEN` rounds are more than the pair loop ever makes (log 11). -/
def runBody (s : State) : State :=
  if s.len = 0 then raise .zeroLength s
  else
    match (pairLoop s.len.toNat s).andThen trailingByte with
    | .ended s => s
    | .go s => finishAndRespond s

end Sys2Proof.Machine
end

