-- ==== Sys2Proof/Machine/Accumulate.lean ====
section
/-! DEFINITION. The accumulate commands `CLR`, `ADDW`, `ADDT` (spec/40_accumulate.md). -/

namespace Sys2Proof.Machine

/-- `CLR` (40_accumulate.md rule R80): never refused. -/
def execClr (s : State) : Host.Outcome State Fault Refusal :=
  .next (respond codeOk 0 (clearRegs s))

/-- `ADDW imm16` (40_accumulate.md rule R81). -/
def execAddw (imm16 : Half) (s : State) : Host.Outcome State Fault Refusal :=
  .next (unlessLatched (addAndRespond (wordOperand imm16)) s)

/-- `ADDT imm8` (40_accumulate.md rule R82). -/
def execAddt (imm8 : Byte) (s : State) : Host.Outcome State Fault Refusal :=
  .next (unlessLatched (addAndRespond (trailingOperand imm8)) s)

end Sys2Proof.Machine
end

