-- ==== Sys2Proof/Machine/FoldFinish.lean ====
section
/-! DEFINITION. The fold and finish commands `FOLD`, `FIN` (spec/41_fold_finish.md). -/

namespace Sys2Proof.Machine

/-- `FOLD` (41_fold_finish.md rule R90). -/
def execFold (s : State) : Host.Outcome State Fault Refusal :=
  .next (unlessLatched foldAndRespond s)

/-- `FIN` (41_fold_finish.md rule R91). -/
def execFin (s : State) : Host.Outcome State Fault Refusal :=
  .next (unlessLatched finishAndRespond s)

end Sys2Proof.Machine
end

