-- ==== Sys2Proof/Machine/Run.lean ====
section
/-! DEFINITION. The whole-call command `RUN` (spec/42_run.md). -/

namespace Sys2Proof.Machine

/-- `RUN len24` (42_run.md rules R100 to R107): never refused, since it starts from the reset state. -/
def execRun (len24 : Length) (s : State) : Host.Outcome State Fault Refusal :=
  .next (runBody (runStart len24 s))

end Sys2Proof.Machine
end

