-- ==== Sys2Proof/Machine/System.lean ====
section
/-! DEFINITION. The system command `RDR` (spec/43_system.md). -/

namespace Sys2Proof.Machine

/-- `RDR r2` (43_system.md rule R120): never refused, and no register changes. -/
def execRdr (r2 : RegNum) (s : State) : Host.Outcome State Fault Refusal :=
  .next (respond codeOk (readReg r2 s) s)

end Sys2Proof.Machine
end

