-- ==== Sys2Proof/Machine/Dispatch.lean ====
section
/-! DEFINITION. One arm per command of the opcode map (30_encoding.md rule R62). -/

namespace Sys2Proof.Machine

/-- The execution of one decoded command. -/
def exec (i : Instr) (s : State) : Host.Outcome State Fault Refusal :=
  match i with
  | .clr => Sys2Proof.Machine.execClr s
  | .addw imm16 => Sys2Proof.Machine.execAddw imm16 s
  | .addt imm8 => Sys2Proof.Machine.execAddt imm8 s
  | .fold => Sys2Proof.Machine.execFold s
  | .fin => Sys2Proof.Machine.execFin s
  | .run len24 => Sys2Proof.Machine.execRun len24 s
  | .rdr r2 => Sys2Proof.Machine.execRdr r2 s

end Sys2Proof.Machine
end

