-- ==== Sys2Proof/Machine/Ports.lean ====
section
/-! DEFINITION. What CSUM does with one input at its ports: a command word (30_encoding.md rules R72, R73), the reset input
(70_reset_and_hazards.md rules R160, R161), and what the environment does to BUF (20_memory.md rule R50). -/

namespace Sys2Proof.Machine

/-- A command word from its acceptance to its response: decoded first (60_exceptions.md rule R137), then executed. -/
def acceptCommand (w : Word) (s : State) : Host.Outcome State Fault Refusal :=
  match decode w with
  | .legal i => exec i s
  | .illegal _ => .next (illegalCommand s)

/-- The indices a command word reads, in order, when every read is answered and nothing abandons it. -/
def issuedReads (w : Word) (s : State) : List Nat :=
  match acceptCommand w s with
  | .next t => t.reads.drop s.reads.length
  | .fault _ => []
  | .refused _ => []

/-- Reset during a command: no response, the reset state, and the reads made before it (70_reset_and_hazards.md rule R161,
log 9). -/
def abandonCommand (w : Word) (made : Nat) (s : State) : State :=
  { clearRegs s with reads := s.reads ++ (issuedReads w s).take made }

/-- Every buffer that stands while a word executes is as 20_memory.md rule R50 asks, from acceptance to response; only a `RUN` asks
anything. -/
def keepsPremise (w : Word) (old : Memory) (bound : List Memory) : Bool :=
  match decode w with
  | .legal (.run n) => bound.all (Memory.sameFor n old)
  | .legal _ => true
  | .illegal _ => true

/-- A command during which the environment makes BUF each of these in turn: as usual, with the last one standing after it, when the
premise of 20_memory.md rule R50 is kept throughout; refused otherwise (93_implementation_defined.md U3, log 7). -/
def acceptRebound (w : Word) (bound : List Memory) (s : State) : Host.Outcome State Fault Refusal :=
  if keepsPremise w s.buf bound then
    match acceptCommand w s with
    | .next t => .next { t with buf := bound.getLastD s.buf }
    | .fault r => .fault r
    | .refused r => .refused r
  else .refused .bufferChangedDuringRun

/-- A command of whose reads only the first `answered` are answered: stuck if it issues more (93_implementation_defined.md U4,
log 8). -/
def acceptUnanswered (w : Word) (answered : Nat) (s : State) : Host.Outcome State Fault Refusal :=
  if answered < (issuedReads w s).length then .fault .readNeverAnswered else acceptCommand w s

/-- One input, already taken from the port. -/
def acceptInput (i : Input) (s : State) : Host.Outcome State Fault Refusal :=
  match i with
  | .command w => acceptCommand w s
  | .reset => .next (clearRegs s)
  | .resetDuring w made => .next (abandonCommand w made s)
  | .bind bytes => .next { s with buf := Memory.ofBytes bytes }
  | .poke index value => .next { s with buf := s.buf.write index value }
  | .commandRebound w bound => acceptRebound w (bound.map Memory.ofBytes) s
  | .commandUnanswered w answered => acceptUnanswered w answered s

/-- Take the oldest input and act on it; with none, CSUM is idle and holds its state (60_exceptions.md rule R147, log 2). -/
def stepInput (s : State) : Host.Outcome State Fault Refusal :=
  match s.inputs with
  | [] => .next s
  | i :: rest => acceptInput i { s with inputs := rest }

/-- The state with a command word as the next thing at the command port. -/
def offerCommand (w : Word) (s : State) : State := { s with inputs := .command w :: s.inputs }

end Sys2Proof.Machine
end

