-- ==== Sys2Proof/Machine/Step.lean ====
section
/-! DEFINITION. One step of the machine, and the placing of a command word where the next step takes it from. -/

namespace Sys2Proof.Machine

/-- One step: the oldest input at the ports (30_encoding.md rule R72). -/
def step (s : State) : Host.Outcome State Fault Refusal := stepInput s

/-- The state with a command word, numbered as spec/opcode_table.json numbers it, as the next input (log 1, log 15). -/
def State.withFetchWord (s : State) (nbits w : Nat) : State := offerCommand (tableWord nbits w) s

end Sys2Proof.Machine
end

