-- ==== Sys2Proof/Machine/Algorithm.lean ====
section
/-! DEFINITION. The pure functions of the computation, on natural numbers and byte lists (00_scope.md rules R6 to R14). The
machine does not call them: they are what its results are compared with. -/

namespace Sys2Proof.Algorithm

/-- `be16(hi, lo)` (00_scope.md rule R7). -/
def be16 (hi lo : Byte) : Nat := hi.toNat * 256 + lo.toNat

/-- The words of a whole byte list: its pairs, then the trailing byte as a high byte (00_scope.md rule R8). -/
def wordsOf : List Byte → List Nat
  | [] => []
  | [b] => [be16 b 0]
  | hi :: lo :: rest => be16 hi lo :: wordsOf rest

/-- `words(data, len)` (00_scope.md rule R8). -/
def words (data : List Byte) (len : Nat) : List Nat := wordsOf (data.take len)

/-- `wsum(data, len)`, exact (00_scope.md rule R9). -/
def wsum (data : List Byte) (len : Nat) : Nat := (words data len).sum

/-- `fold1(a)` (00_scope.md rule R10). -/
def fold1 (a : Nat) : Nat := (a &&& 0xFFFF) + (a >>> 16)

/-- The loop `while (a >> 16) != 0: a <- fold1(a)`, cut after a number of rounds. -/
def foldRounds : Nat → Nat → Nat
  | 0, a => a
  | k + 1, a => if a >>> 16 = 0 then a else foldRounds k (fold1 a)

/-- `fold(a)`, for `a < 2^32` (00_scope.md rule R11); two rounds end the loop (rule R12 (c), log 10). -/
def fold (a : Nat) : Nat := foldRounds Config.foldLimit a

/-- `cpl16(a)`, for `a <= 0xFFFF` (00_scope.md rule R13). -/
def cpl16 (a : Nat) : Nat := 0xFFFF - a

/-- `csum(data, len)`, for `1 <= len <= data.length` and a sum below `2^32` (00_scope.md rule R14). -/
def csum (data : List Byte) (len : Nat) : Nat := cpl16 (fold (wsum data len))

end Sys2Proof.Algorithm
end

