-- ==== Sys2Proof/Machine/Assembler.lean ====
section
/-! DEFINITION. The assembler and the disassembler (30_encoding.md rules R69, R70, R71, R74). Text is a list of characters. What
the rules leave open of the text (what ends a line, what separates words, the case of hexadecimal letters, the digits printed) is
log 14. No command depends on it. -/

namespace Sys2Proof

/-- The additions of `COMPUTE`: one `ADDW` per pair, the byte at the lower index high, then `ADDT` for an unpaired last byte
(30_encoding.md rule R71). -/
def computeAdditions : List Byte → List Instr
  | [] => []
  | [b] => [.addt b]
  | hi :: lo :: rest => .addw (hi ++ lo) :: computeAdditions rest

/-- The commands of `COMPUTE`: `CLR`, the additions, `FIN` (30_encoding.md rule R71). -/
def computeCommands (bytes : List Byte) : List Instr :=
  .clr :: (computeAdditions bytes ++ [.fin])

/-- The words a well-formed source line emits (30_encoding.md rules R69, R70, R71). -/
def Line.words : Line → List Word
  | .clr => [encode .clr]
  | .addw v => [encode (.addw (BitVec.ofNat 16 v))]
  | .addt v => [encode (.addt (BitVec.ofNat 8 v))]
  | .fold => [encode .fold]
  | .fin => [encode .fin]
  | .run v => [encode (.run (BitVec.ofNat 24 v))]
  | .rdr v => [encode (.rdr (RegNum.ofBits (BitVec.ofNat 2 v)))]
  | .rdrNamed r => [encode (.rdr r)]
  | .word v => [BitVec.ofNat 32 v]
  | .addp hi lo => [encode (.addw (BitVec.ofNat 8 hi ++ BitVec.ofNat 8 lo))]
  | .compute bytes => (computeCommands (bytes.map (BitVec.ofNat 8))).map encode

/-- A source line assembled; an operand out of range is an assembly error (30_encoding.md rule R69). -/
def assemble (l : Line) : Option (List Word) := if l.wellFormed then some l.words else none

/-- The pieces of a source line. -/
inductive Token
  | name (text : List Char)
  | comma
deriving DecidableEq, Repr

/-- The value of a digit character. DESIGN CHOICE, log 14: hexadecimal letters in both cases. -/
def digitValue (c : Char) : Option Nat :=
  if 48 ≤ c.toNat ∧ c.toNat ≤ 57 then some (c.toNat - 48)
  else if 65 ≤ c.toNat ∧ c.toNat ≤ 70 then some (c.toNat - 55)
  else if 97 ≤ c.toNat ∧ c.toNat ≤ 102 then some (c.toNat - 87)
  else none

/-- Digits of a base read after a value. -/
def parseDigits (base : Nat) : Nat → List Char → Option Nat
  | acc, [] => some acc
  | acc, c :: cs =>
    match digitValue c with
    | none => none
    | some d => if d < base then parseDigits base (acc * base + d) cs else none

/-- "Operands are unsigned numbers, decimal or `0x` hexadecimal" (30_encoding.md rule R69). DESIGN CHOICE, log 14: leading zeros are
read, and the prefix is the lower-case one alone. -/
def parseNumber : List Char → Option Nat
  | [] => none
  | ['0', 'x'] => none
  | '0' :: 'x' :: ds => parseDigits 16 0 ds
  | ds => parseDigits 10 0 ds

/-- The token being read, if it has a character. -/
def flushToken (current : List Char) : List Token :=
  if current = [] then [] else [.name current]

/-- A line cut at spaces and commas; `current` is the token being read. DESIGN CHOICE, log 14: no other character separates, a run of
spaces counts as one, and spaces before the mnemonic and at the end of the line are dropped (30_encoding.md rule R69 speaks only of
spaces between the mnemonic and its operand). -/
def tokens : List Char → List Char → List Token
  | current, [] => flushToken current
  | current, c :: cs =>
    if c = ' ' then flushToken current ++ tokens [] cs
    else if c = ',' then flushToken current ++ .comma :: tokens [] cs
    else tokens (current ++ [c]) cs

/-- The register names `RDR` takes (30_encoding.md rule R69). -/
def RegNum.text : RegNum → List Char
  | .acc => ['A', 'C', 'C']
  | .status => ['S', 'T', 'A', 'T', 'U', 'S']
  | .len => ['L', 'E', 'N']
  | .idx => ['I', 'D', 'X']

/-- The register a name stands for. -/
def regNamed (text : List Char) : Option RegNum :=
  [RegNum.acc, .status, .len, .idx].find? fun r => r.text == text

/-- One number and nothing else. -/
def oneNumber : List Token → Option Nat
  | [.name v] => parseNumber v
  | _ => none

/-- Numbers separated by commas (30_encoding.md rules R70, R71). DESIGN CHOICE, log 14: spaces around a comma are free. -/
def numberList : List Token → Option (List Nat)
  | [.name v] => (parseNumber v).map fun n => [n]
  | .name v :: .comma :: rest =>
    match parseNumber v, numberList rest with
    | some n, some ns => some (n :: ns)
    | _, _ => none
  | _ => none

/-- The operand of `RDR`: a register name or a number. -/
def parseRdr : List Token → Option Line
  | [.name v] =>
    match regNamed v with
    | some r => some (.rdrNamed r)
    | none => (parseNumber v).map .rdr
  | _ => none

/-- A line that takes no operand. -/
def noOperand (l : Line) (operands : List Token) : Option Line :=
  if operands = [] then some l else none

/-- The two bytes of `ADDP` (30_encoding.md rule R70). -/
def parseAddp (operands : List Token) : Option Line :=
  match numberList operands with
  | some [hi, lo] => some (.addp hi lo)
  | _ => none

/-- A mnemonic and its operands (30_encoding.md rules R69, R70, R71). -/
def parseCommand (mnemonic : List Char) (operands : List Token) : Option Line :=
  if mnemonic = ['C', 'L', 'R'] then noOperand .clr operands
  else if mnemonic = ['A', 'D', 'D', 'W'] then (oneNumber operands).map .addw
  else if mnemonic = ['A', 'D', 'D', 'T'] then (oneNumber operands).map .addt
  else if mnemonic = ['F', 'O', 'L', 'D'] then noOperand .fold operands
  else if mnemonic = ['F', 'I', 'N'] then noOperand .fin operands
  else if mnemonic = ['R', 'U', 'N'] then (oneNumber operands).map .run
  else if mnemonic = ['R', 'D', 'R'] then parseRdr operands
  else if mnemonic = ['.', 'w', 'o', 'r', 'd'] then (oneNumber operands).map .word
  else if mnemonic = ['A', 'D', 'D', 'P'] then parseAddp operands
  else if mnemonic = ['C', 'O', 'M', 'P', 'U', 'T', 'E'] then (numberList operands).map .compute
  else none

/-- The words of one line of text: none for an assembly error, no word for a blank line or a comment; `;` starts a comment to the
end of the line (30_encoding.md rule R69). DESIGN CHOICE, log 14: a line without a command is no error, and a comment needs no space
before it. -/
def assembleLine (text : List Char) : Option (List Word) :=
  match tokens [] (text.takeWhile fun c => c != ';') with
  | [] => some []
  | .comma :: _ => none
  | .name mnemonic :: operands =>
    match parseCommand mnemonic operands with
    | none => none
    | some l => assemble l

/-- Text cut at line ends; `current` is the line being read. DESIGN CHOICE, log 14: the newline character alone ends a line (the
rule says only "one command per line", 30_encoding.md rule R69), so a carriage return stays in its line. -/
def splitLines : List Char → List Char → List (List Char)
  | current, [] => [current]
  | current, c :: cs => if c = '\n' then current :: splitLines [] cs else splitLines (current ++ [c]) cs

/-- The words of lines in order, none if a line is an error. -/
def assembleLines : List (List Char) → Option (List Word)
  | [] => some []
  | l :: ls =>
    match assembleLine l, assembleLines ls with
    | some ws, some rest => some (ws ++ rest)
    | _, _ => none

/-- A whole source text, one command per line (30_encoding.md rule R69). -/
def assembleText (text : List Char) : Option (List Word) := assembleLines (splitLines [] text)

/-- The character of a digit, upper case (log 14). -/
def digitChar (d : Nat) : Char := if d < 10 then Char.ofNat (48 + d) else Char.ofNat (55 + d)

/-- The low `k` hexadecimal digits of a number. -/
def hexDigits : Nat → Nat → List Char
  | 0, _ => []
  | k + 1, n => hexDigits k (n / 16) ++ [digitChar (n % 16)]

/-- `0x` and `k` hexadecimal digits. -/
def hexText (k n : Nat) : List Char := '0' :: 'x' :: hexDigits k n

/-- The decimal digits of a number of at most `k + 1` digits, without leading zeros. -/
def decimalText : Nat → Nat → List Char
  | 0, n => [digitChar (n % 10)]
  | k + 1, n => if n < 10 then [digitChar n] else decimalText k (n / 10) ++ [digitChar (n % 10)]

/-- How a command prints (30_encoding.md rule R74); the pseudo-instructions never appear. -/
def Instr.text : Instr → List Char
  | .clr => ['C', 'L', 'R']
  | .addw imm16 => ['A', 'D', 'D', 'W', ' '] ++ hexText 4 imm16.toNat
  | .addt imm8 => ['A', 'D', 'D', 'T', ' '] ++ hexText 2 imm8.toNat
  | .fold => ['F', 'O', 'L', 'D']
  | .fin => ['F', 'I', 'N']
  | .run len24 => ['R', 'U', 'N', ' '] ++ decimalText 7 len24.toNat
  | .rdr r2 => ['R', 'D', 'R', ' '] ++ r2.text

/-- How any word prints: an illegal one as `.word 0x<8 hex digits>` (30_encoding.md rule R74). -/
def disassemble (c : Word) : List Char :=
  match decode c with
  | .legal i => i.text
  | .illegal _ => ['.', 'w', 'o', 'r', 'd', ' '] ++ hexText 8 c.toNat

end Sys2Proof
end

