-- ==== Sys2Proof/Safety.lean ====
section
/-! DEFINITION. What the statements speak of: command sequences, the environment's premises, and the invariant of the machine. -/

namespace Sys2Proof.Machine

/-- Commands executed one after another, stopping at the first stop. -/
def execAll : List Instr → State → Host.Outcome State Fault Refusal
  | [], s => .next s
  | i :: rest, s =>
    match exec i s with
    | .next t => execAll rest t
    | .fault r => .fault r
    | .refused r => .refused r

/-- What an addition adds, as a number; nothing for the other commands (40_accumulate.md rules R81, R82). -/
def addend : Instr → Option Nat
  | .clr => none
  | .addw imm16 => some imm16.toNat
  | .addt imm8 => some (imm8.toNat * 256)
  | .fold => none
  | .fin => none
  | .run _ => none
  | .rdr _ => none

/-- An input taken in this state keeps the environment's premises: BUF stays during a `RUN` as 20_memory.md rule R50 asks, and every
read that a command issues is answered (70_reset_and_hazards.md rule R169). -/
def Input.keepsPremises (s : State) : Input → Bool
  | .command _ => true
  | .reset => true
  | .resetDuring _ _ => true
  | .bind _ => true
  | .poke _ _ => true
  | .commandRebound w bound => keepsPremise w s.buf (bound.map Memory.ofBytes)
  | .commandUnanswered w answered => decide ((issuedReads w s).length ≤ answered)

/-- The command word an input carries to its response: the reset input inside a command answers nothing. -/
def Input.answeredWord : Input → Option Word
  | .command w => some w
  | .reset => none
  | .resetDuring _ _ => none
  | .bind _ => none
  | .poke _ _ => none
  | .commandRebound w _ => some w
  | .commandUnanswered w _ => some w

/-- A response a rule allows: a code of at most 4, and no data with a failure (30_encoding.md rules R67, R68). -/
abbrev Response.lawful (r : Response) : Prop := r.rcode ≤ 4 ∧ (r.rcode ≠ 0 → r.rdata = 0)

/-- The invariant of the machine: `ERR` holds a fault code (10_state.md rule R23); `IDX` does not pass `LEN` and is even unless
equal to it (rule R25); what the zero-length and the out-of-bounds faults record stands as long as they are latched
(60_exceptions.md rules R134, R135); BUF is in canonical form (log 5); every response sent is lawful. -/
structure State.Inv (s : State) : Prop where
  errCode : s.err ≤ 3
  idxAtMostLen : s.idx ≤ s.len
  idxEven : s.idx.toNat % 2 = 0 ∨ s.idx = s.len
  zeroLengthRecord : s.err = 1 → s.regs = ⟨0, 1, 0, 0⟩
  outOfBoundsRecord : s.err = 2 → s.idx < s.len ∧ s.idx.toNat % 2 = 0
  bufCanonical : s.buf.wf = true
  sentLawful : ∀ r ∈ s.sent, r.lawful

end Sys2Proof.Machine
end

