-- ==== Sys2Proof/Certificates/Slice0/Obligations.lean ====
section
/-! DEFINITION. The statements for the provers. Each docstring names the rule of spec/ it formalises. A state written as a record
update of the old one says the frame as well: every field it does not name is unchanged, BUF and the ports included. -/

open Sys2Proof Sys2Proof.Machine Sys2Proof.Algorithm

/-! ### Reset and `CLR` -/

/-- 10_state.md R31: after reset every register is zero; it is the state `CLR` produces and the state `RUN` starts from. -/
def Obligations.ResetStateIsAllZero : Prop :=
  State.reset.regs = ⟨0, 0, 0, 0⟩ ∧
  (∀ s : State, ∃ t, exec .clr s = .next t ∧ t.regs = State.reset.regs) ∧
  (∀ (n : Length) (s : State), exec (.run n) s = exec (.run n) { s with acc := 0, err := 0, len := 0, idx := 0 })

/-- 40_accumulate.md R80: `CLR` zeroes all four registers whatever `ERR` is; its word; a set `ARG` bit is illegal. -/
def Obligations.ClearGivesTheResetState : Prop :=
  (∀ s : State, exec .clr s =
    .next { s with acc := 0, err := 0, len := 0, idx := 0, sent := s.sent ++ [⟨0, 0⟩] }) ∧
  encode .clr = 0x01000000 ∧ decode 0x01000000 = .legal .clr ∧
  (∀ w : Word, opField w = 0x01 → argField w ≠ 0 → decode w = .illegal .mustBeZeroSet)

/-- 70_reset_and_hazards.md R160: the reset input gives the reset state, sends nothing, reads nothing, and leaves the registers
as `CLR` does. -/
def Obligations.ResetInputClearsWithoutResponse : Prop :=
  ∀ (s : State) (rest : List Input), s.inputs = .reset :: rest →
    step s = .next { s with acc := 0, err := 0, len := 0, idx := 0, inputs := rest } ∧
    ∃ t, exec .clr s = .next t ∧ t.regs = ⟨0, 0, 0, 0⟩

/-- 70_reset_and_hazards.md R161: a command abandoned by reset sends no response and leaves the reset state; the one trace is
reads, the first ones the command would have made, at most as many as the input says (log 9). -/
def Obligations.ResetAbandonsTheCommand : Prop :=
  ∀ (s : State) (w : Word) (made : Nat) (rest : List Input), s.inputs = .resetDuring w made :: rest →
    ∃ (t : State) (l : List Nat),
      step { s with inputs := .command w :: rest } = .next t ∧ t.reads = s.reads ++ l ∧
      step s = .next { s with acc := 0, err := 0, len := 0, idx := 0, inputs := rest, reads := s.reads ++ l.take made }

/-- 70_reset_and_hazards.md R162, which the spec marks as derived: any command may be the first after reset, and `FIN` then
responds `(0, 0x0000FFFF)`. -/
def Obligations.AnyCommandMayComeFirst : Prop :=
  (∀ i : Instr, ∃ (t : State) (r : Response), exec i State.reset = .next t ∧ t.sent = [r] ∧ r.lawful) ∧
  exec .fin State.reset = .next { State.reset with sent := [⟨0, 0x0000FFFF⟩] }

/-! ### `ADDW` and `ADDT` -/

/-- 40_accumulate.md R81: `ADDW` refused while a fault is latched, an exact addition when it fits, AccOverflow with `ACC`
unchanged when it does not; its word. -/
def Obligations.AddWordIsExactOrFaults : Prop :=
  (∀ v : Half, encode (.addw v) = 0x02000000 ||| v.setWidth 32) ∧
  ∀ (v : Half) (s : State),
    (s.err ≠ 0 → exec (.addw v) s = .next { s with sent := s.sent ++ [⟨s.err, 0⟩] }) ∧
    (s.err = 0 → s.acc.toNat + v.toNat ≤ 0xFFFFFFFF →
      exec (.addw v) s =
        .next { s with acc := BitVec.ofNat 32 (s.acc.toNat + v.toNat), sent := s.sent ++ [⟨0, 0⟩] }) ∧
    (s.err = 0 → 0xFFFFFFFF < s.acc.toNat + v.toNat →
      exec (.addw v) s = .next { s with err := 3, sent := s.sent ++ [⟨3, 0⟩] })

/-- 40_accumulate.md R82: `ADDT` adds its byte as the high byte of a word, under the same checks; its word. -/
def Obligations.AddTrailingByteIsExactOrFaults : Prop :=
  (∀ b : Byte, encode (.addt b) = 0x03000000 ||| b.setWidth 32) ∧
  ∀ (b : Byte) (s : State),
    (s.err ≠ 0 → exec (.addt b) s = .next { s with sent := s.sent ++ [⟨s.err, 0⟩] }) ∧
    (s.err = 0 → s.acc.toNat + b.toNat * 256 ≤ 0xFFFFFFFF →
      exec (.addt b) s =
        .next { s with acc := BitVec.ofNat 32 (s.acc.toNat + b.toNat * 256), sent := s.sent ++ [⟨0, 0⟩] }) ∧
    (s.err = 0 → 0xFFFFFFFF < s.acc.toNat + b.toNat * 256 →
      exec (.addt b) s = .next { s with err := 3, sent := s.sent ++ [⟨3, 0⟩] })

/-- 40_accumulate.md R83, which the spec marks as derived: `ADDT b` is `ADDW (b << 8)` on every state. -/
def Obligations.TrailingByteEqualsShiftedWord : Prop :=
  ∀ (b : Byte) (s : State), exec (.addt b) s = exec (.addw (b ++ (0 : Byte))) s

/-- 40_accumulate.md R84, which the spec marks as derived: additions in any order. Whether one of them faults depends on the total
alone, and when none does the two orders leave the same state. -/
def Obligations.AdditionOrderIsFree : Prop :=
  ∀ (l l' : List Instr) (adds : List Nat) (s : State),
    l.map addend = adds.map some → l'.Perm l → s.err = 0 →
    ∃ t t', execAll l s = .next t ∧ execAll l' s = .next t' ∧
      (t.err = 0 ↔ s.acc.toNat + adds.sum ≤ 0xFFFFFFFF) ∧
      (t'.err = 0 ↔ s.acc.toNat + adds.sum ≤ 0xFFFFFFFF) ∧
      (t.err = 0 → t' = t ∧ t.acc.toNat = s.acc.toNat + adds.sum)

/-- 40_accumulate.md R85 (d) and 70_reset_and_hazards.md R165, which the spec marks as derived: 65,537 additions from `ACC = 0`, or
65,536 from a folded `ACC`, cannot overflow. -/
def Obligations.AdditionsWithinTheMarginSucceed : Prop :=
  ∀ (l : List Instr) (adds : List Nat) (s : State),
    l.map addend = adds.map some → s.err = 0 →
    (s.acc = 0 ∧ l.length ≤ 65537 ∨ s.acc.toNat ≤ 0xFFFF ∧ l.length ≤ 65536) →
    execAll l s = .next { s with
      acc := BitVec.ofNat 32 (s.acc.toNat + adds.sum), sent := s.sent ++ List.replicate l.length ⟨0, 0⟩ }

/-! ### `FOLD` and `FIN` -/

/-- 41_fold_finish.md R90: `FOLD` is refused while a fault is latched; otherwise `ACC` becomes what the loop
`while ACC[31:16] != 0` leaves, after at most two rounds, and is returned; its word. -/
def Obligations.FoldRunsTheCarryLoop : Prop :=
  encode .fold = 0x04000000 ∧
  ∀ s : State,
    (s.err ≠ 0 → exec .fold s = .next { s with sent := s.sent ++ [⟨s.err, 0⟩] }) ∧
    (s.err = 0 → ∃ (k : Nat) (a : Word), k ≤ 2 ∧
      a.toNat = fold1^[k] s.acc.toNat ∧ (∀ j < k, 0xFFFF < fold1^[j] s.acc.toNat) ∧ a.toNat ≤ 0xFFFF ∧
      exec .fold s = .next { s with acc := a, sent := s.sent ++ [⟨0, a⟩] })

/-- 41_fold_finish.md R91: `FIN` is refused while a fault is latched; otherwise it folds `ACC` and returns the complement of the
folded value, `0xFFFF` exactly for an empty sum and `0` exactly for a positive multiple of `0xFFFF`; its word. -/
def Obligations.FinishReturnsTheComplement : Prop :=
  encode .fin = 0x05000000 ∧
  ∀ s : State,
    (s.err ≠ 0 → exec .fin s = .next { s with sent := s.sent ++ [⟨s.err, 0⟩] }) ∧
    (s.err = 0 → ∃ a d : Word, a.toNat = fold s.acc.toNat ∧ d.toNat = 0xFFFF - a.toNat ∧ a.toNat ≤ 0xFFFF ∧
      d = ((~~~a).extractLsb' 0 16).setWidth 32 ∧
      exec .fin s = .next { s with acc := a, sent := s.sent ++ [⟨0, d⟩] } ∧
      (d.toNat = 0xFFFF ↔ s.acc.toNat = 0) ∧
      (d.toNat = 0 ↔ 0 < s.acc.toNat ∧ s.acc.toNat % 0xFFFF = 0))

/-- 41_fold_finish.md R93, which the spec marks as derived: `FIN` leaves the registers `FOLD` leaves and returns the complement of
what `FOLD` returns; `FOLD` then `FIN` returns what `FIN` alone does. -/
def Obligations.FinishIsFoldThenComplement : Prop :=
  ∀ s : State, ∃ (t u v : State) (r q : Response),
    exec .fold s = .next t ∧ exec .fin s = .next u ∧ exec .fin t = .next v ∧
    t.regs = u.regs ∧ v.regs = u.regs ∧
    t.sent = s.sent ++ [r] ∧ u.sent = s.sent ++ [q] ∧ v.sent = s.sent ++ [r, q] ∧
    r.rcode = q.rcode ∧ (r.rcode = 0 → q.rdata.toNat = 0xFFFF - r.rdata.toNat)

/-- 00_scope.md R12 (a), (b), (d), (e); the spec marks (d) and (e) as derived. -/
def Obligations.FoldLaws : Prop :=
  ∀ a : Nat, a < 2 ^ 32 →
    fold a ≤ 0xFFFF ∧ fold (fold a) = fold a ∧ (fold a = 0 ↔ a = 0) ∧
    (1 ≤ a → fold a = (a - 1) % 0xFFFF + 1) ∧ (fold a = 0xFFFF ↔ 1 ≤ a ∧ a % 0xFFFF = 0)

/-- 41_fold_finish.md R92, which the spec marks as derived: a fold between additions does not change the checksum that a later `FIN`
returns. -/
def Obligations.AccumulationContinuesAfterFold : Prop :=
  ∀ (l : List Instr) (adds : List Nat) (s : State),
    l.map addend = adds.map some → s.err = 0 →
    s.acc.toNat + adds.sum ≤ 0xFFFFFFFF → fold s.acc.toNat + adds.sum ≤ 0xFFFFFFFF →
    ∃ (t u : State) (r : Response),
      execAll (l ++ [.fin]) s = .next t ∧ execAll (.fold :: (l ++ [.fin])) s = .next u ∧
      t.regs = u.regs ∧ t.sent.getLast? = some r ∧ u.sent.getLast? = some r ∧ r.rcode = 0

/-! ### The algorithm -/

/-- 00_scope.md R8: the words are the big-endian pairs at the even indices, then the trailing byte as a high byte. -/
def Obligations.WordsAreBigEndianPairs : Prop :=
  ∀ (data : List Byte) (len : Nat), 1 ≤ len → len ≤ data.length →
    (words data len).length = (len + 1) / 2 ∧
    (∀ k, 2 * k < len - 1 →
      (words data len)[k]? = some ((data.getD (2 * k) 0).toNat * 256 + (data.getD (2 * k + 1) 0).toNat)) ∧
    (len % 2 = 1 → (words data len)[len / 2]? = some ((data.getD (len - 1) 0).toNat * 256))

/-- 00_scope.md R9, which the spec marks as derived: the bound of the exact sum. -/
def Obligations.WordSumIsBounded : Prop :=
  ∀ (data : List Byte) (len : Nat), wsum data len ≤ 0xFFFF * (len / 2) + 0xFF00 * (len % 2)

/-- 00_scope.md R15: a zero byte appended to an odd-length buffer does not change the checksum. -/
def Obligations.PaddingKeepsTheChecksum : Prop :=
  ∀ (data : List Byte) (len : Nat), data.length = len → len % 2 = 1 → csum (data ++ [0]) (len + 1) = csum data len

/-- 00_scope.md R16, which the spec marks as derived: when the checksum is `0xFFFF`, when it is `0`, that every value is possible,
and that a buffer filled with its own checksum has checksum `0`. -/
def Obligations.ChecksumRange : Prop :=
  (∀ (data : List Byte) (len : Nat), 1 ≤ len → len ≤ data.length → wsum data len < 2 ^ 32 →
    csum data len ≤ 0xFFFF ∧
    (csum data len = 0xFFFF ↔ ∀ w ∈ words data len, w = 0) ∧
    (csum data len = 0 ↔ 0 < wsum data len ∧ wsum data len % 0xFFFF = 0) ∧
    (∀ k, 2 * k + 1 < len → data[2 * k]? = some 0 → data[2 * k + 1]? = some 0 →
      wsum data len + csum data len < 2 ^ 32 →
      csum ((data.set (2 * k) (BitVec.ofNat 8 (csum data len / 256))).set (2 * k + 1)
        (BitVec.ofNat 8 (csum data len % 256))) len = 0)) ∧
  (∀ c : Nat, c ≤ 0xFFFF → ∃ data : List Byte, data.length = 2 ∧ csum data 2 = c)

/-! ### `RUN` -/

/-- 42_run.md R105: a successful `RUN` leaves the folded sum and the length, and returns the checksum. It succeeds when the length is
positive, the bytes are there and the sum fits. -/
def Obligations.RunReturnsTheChecksum : Prop :=
  ∀ (n : Length) (s : State),
    n ≠ 0 → n.toNat ≤ s.buf.avail → wsum s.buf.bytes n.toNat ≤ 0xFFFFFFFF →
    exec (.run n) s = .next { s with
      acc := BitVec.ofNat 32 (fold (wsum s.buf.bytes n.toNat)), err := 0, len := n, idx := n,
      sent := s.sent ++ [⟨0, BitVec.ofNat 32 (csum s.buf.bytes n.toNat)⟩],
      reads := s.reads ++ List.range n.toNat }

/-- 42_run.md R102, 60_exceptions.md R134: `RUN 0` raises ZeroLength from any state and reads nothing; `CLR` then `FIN` returns the
constant `0xFFFF`. -/
def Obligations.RunZeroLengthFaults : Prop :=
  (∀ s : State, exec (.run 0) s =
    .next { s with acc := 0, err := 1, len := 0, idx := 0, sent := s.sent ++ [⟨1, 0⟩] }) ∧
  (∀ s : State, execAll [.clr, .fin] s =
    .next { s with acc := 0, err := 0, len := 0, idx := 0, sent := s.sent ++ [⟨0, 0⟩, ⟨0, 0x0000FFFF⟩] })

/-- 42_run.md R106, 60_exceptions.md R135: a `RUN` that needs a byte the buffer lacks raises OutOfBounds at index `N`, keeping the
exact sum of the complete pairs and their number of bytes; nothing else raises it. -/
def Obligations.RunShortBufferFaults : Prop :=
  (∀ (n : Length) (s : State),
    s.buf.avail < n.toNat → wsum s.buf.bytes (2 * (s.buf.avail / 2)) ≤ 0xFFFFFFFF →
    exec (.run n) s = .next { s with
      acc := BitVec.ofNat 32 (wsum s.buf.bytes (2 * (s.buf.avail / 2))), err := 2, len := n,
      idx := BitVec.ofNat 24 (2 * (s.buf.avail / 2)), sent := s.sent ++ [⟨2, 0⟩],
      reads := s.reads ++ List.range (s.buf.avail + 1) }) ∧
  (∀ (i : Instr) (s t : State), exec i s = .next t → s.err ≠ 2 → t.err = 2 →
    ∃ n, i = .run n ∧ s.buf.avail < n.toNat)

/-- 42_run.md R107: a word whose addition would exceed `0xFFFFFFFF` ends `RUN` with AccOverflow, its bytes read and not added; a
word that lacks a byte raises OutOfBounds, whatever it would sum to. -/
def Obligations.RunOverflowFaults : Prop :=
  (∀ (n : Length) (s : State) (k : Nat),
    2 * k < n.toNat → min (2 * k + 2) n.toNat ≤ s.buf.avail → wsum s.buf.bytes (2 * k) ≤ 0xFFFFFFFF →
    0xFFFFFFFF < wsum s.buf.bytes (min (2 * k + 2) n.toNat) →
    exec (.run n) s = .next { s with
      acc := BitVec.ofNat 32 (wsum s.buf.bytes (2 * k)), err := 3, len := n, idx := BitVec.ofNat 24 (2 * k),
      sent := s.sent ++ [⟨3, 0⟩], reads := s.reads ++ List.range (min (2 * k + 2) n.toNat) }) ∧
  (∀ (n : Length) (s : State) (k : Nat),
    2 * k < n.toNat → 2 * k ≤ s.buf.avail → s.buf.avail < min (2 * k + 2) n.toNat →
    wsum s.buf.bytes (2 * k) ≤ 0xFFFFFFFF →
    ∃ t, exec (.run n) s = .next t ∧ t.err = 2 ∧ t.idx.toNat = 2 * k)

/-- 42_run.md R108, which the spec marks as derived: the closed form of `RUN`, with `k` the first word that lacks a byte or overflows,
`S k` the exact sum of the words before word `k`. -/
def Obligations.RunHasTheClosedForm : Prop :=
  ∀ (n : Length) (s : State),
    let N := s.buf.avail
    let S : Nat → Nat := fun k => wsum s.buf.bytes (min (2 * k) n.toNat)
    let lacks : Nat → Prop := fun k => N ≤ min (2 * k + 1) (n.toNat - 1)
    let fails : Nat → Prop := fun k => lacks k ∨ 0xFFFFFFFF < S (k + 1)
    (n = 0 → exec (.run n) s =
      .next { s with acc := 0, err := 1, len := 0, idx := 0, sent := s.sent ++ [⟨1, 0⟩] }) ∧
    (∀ k, k < (n.toNat + 1) / 2 → fails k → (∀ j < k, ¬ fails j) →
      ∃ e : Code, (lacks k → e = 2) ∧ (¬ lacks k → e = 3) ∧
      exec (.run n) s = .next { s with
        acc := BitVec.ofNat 32 (S k), err := e, len := n, idx := BitVec.ofNat 24 (2 * k),
        sent := s.sent ++ [⟨e, 0⟩],
        reads := s.reads ++ List.range (min (min (2 * k + 2) n.toNat) (N + 1)) }) ∧
    (n ≠ 0 → (∀ k, k < (n.toNat + 1) / 2 → ¬ fails k) →
      exec (.run n) s = .next { s with
        acc := BitVec.ofNat 32 (fold (S ((n.toNat + 1) / 2))), err := 0, len := n, idx := n,
        sent := s.sent ++ [⟨0, BitVec.ofNat 32 (csum s.buf.bytes n.toNat)⟩],
        reads := s.reads ++ List.range n.toNat })

/-- 42_run.md R109: the response of `RUN`, the registers it leaves and the reads it makes depend on its operand, `BUF_AVAIL` and the
bytes below both, and on nothing else. -/
def Obligations.RunDependsOnItsInputsOnly : Prop :=
  ∀ (n : Length) (s s' : State),
    s.buf.avail = s'.buf.avail → (∀ i < min n.toNat s.buf.avail, s.buf.read i = s'.buf.read i) →
    ∃ (t t' : State) (r : Response) (l : List Nat),
      exec (.run n) s = .next t ∧ exec (.run n) s' = .next t' ∧ t.regs = t'.regs ∧
      t.sent = s.sent ++ [r] ∧ t'.sent = s'.sent ++ [r] ∧
      t.reads = s.reads ++ l ∧ t'.reads = s'.reads ++ l

/-- 20_memory.md R43, R47, R48: only `RUN` with a positive length reads; it reads from index 0 up, each index once, no index at or
above its length and none above `BUF_AVAIL`; a `RUN` that succeeds reads exactly its length; a length that the buffer holds is
accepted. -/
def Obligations.ReadsAscendFromZero : Prop :=
  ∀ (i : Instr) (s : State), ∃ (t : State) (k : Nat),
    exec i s = .next t ∧ t.reads = s.reads ++ List.range k ∧
    ((∀ n, i ≠ .run n) → k = 0) ∧
    (∀ n, i = .run n → (n = 0 → k = 0) ∧ k ≤ n.toNat ∧ k ≤ s.buf.avail + 1 ∧
      (t.err = 0 → k = n.toNat ∧ k ≤ s.buf.avail) ∧ (k = s.buf.avail + 1 → t.err = 2) ∧
      (n.toNat ≤ s.buf.avail → t.err ≠ 2))

/-- 10_state.md R25, its invariant inside a `RUN` step, before the final fold: after any number of rounds of the pair loop `ACC` is the
exact sum of the words of the bytes below `IDX`, and `IDX` is even and at most `LEN`; past the trailing byte, if there is one, `IDX`
is `LEN` and `ACC` is the exact sum of all the words, not yet folded. -/
def Obligations.PairLoopKeepsThePartialSum : Prop :=
  ∀ (n : Length) (s t : State), n ≠ 0 →
    (∀ rounds : Nat, pairLoop rounds (runStart n s) = .go t →
      t.acc.toNat = wsum s.buf.bytes t.idx.toNat ∧ t.idx.toNat ≤ n.toNat ∧ t.idx.toNat % 2 = 0 ∧ t.len = n ∧ t.err = 0) ∧
    ((pairLoop n.toNat (runStart n s)).andThen trailingByte = .go t →
      t.acc.toNat = wsum s.buf.bytes n.toNat ∧ t.idx = n ∧ t.len = n ∧ t.err = 0)

/-- 40_accumulate.md R85 (d), which the spec marks as derived: a `RUN` of at most 131,074 bytes never raises AccOverflow. -/
def Obligations.RunWithinTheMarginNeverOverflows : Prop :=
  ∀ (n : Length) (s : State), n.toNat ≤ 131074 → ∃ t, exec (.run n) s = .next t ∧ t.err ≠ 3

/-- 30_encoding.md R71 and the last sentence of 42_run.md R108, which the spec marks as derived: `COMPUTE` of at least one byte, however
many, expands to `CLR`, an `ADDW` per pair, an `ADDT` for an unpaired last byte and `FIN`, `2 + floor((n+1)/2)` commands in all; when
none of them faults the last response is the checksum; a `RUN n` on the same bytes, for an `n` that a length can hold, sends the same
response and leaves the same `ACC`; `COMPUTE` leaves `LEN` and `IDX` zero; `COMPUTE` of no byte is an assembly error. -/
def Obligations.ComputeEqualsRun : Prop :=
  assemble (.compute []) = none ∧
  ∀ (bytes : List Byte) (s : State), bytes ≠ [] →
    assemble (.compute (bytes.map BitVec.toNat)) = some ((computeCommands bytes).map encode) ∧
    (computeCommands bytes).length = 2 + (bytes.length + 1) / 2 ∧
    (computeCommands bytes)[0]? = some .clr ∧ (computeCommands bytes).getLast? = some .fin ∧
    (∀ (k : Nat) (hi lo : Byte), bytes[2 * k]? = some hi → bytes[2 * k + 1]? = some lo →
      (computeCommands bytes)[k + 1]? = some (.addw (hi ++ lo))) ∧
    (∀ b : Byte, bytes.length % 2 = 1 → bytes.getLast? = some b →
      (computeCommands bytes)[bytes.length / 2 + 1]? = some (.addt b)) ∧
    (wsum bytes bytes.length ≤ 0xFFFFFFFF →
      ∃ t : State,
        execAll (computeCommands bytes) s = .next t ∧
        t.sent.getLast? = some ⟨0, BitVec.ofNat 32 (csum bytes bytes.length)⟩ ∧
        t.acc.toNat = fold (wsum bytes bytes.length) ∧ t.err = 0 ∧ t.len = 0 ∧ t.idx = 0 ∧
        ∀ n : Length, n.toNat = bytes.length →
          ∃ u : State, exec (.run n) { s with buf := Memory.ofBytes bytes } = .next u ∧
            u.sent.getLast? = t.sent.getLast? ∧ u.acc = t.acc) ∧
    (0xFFFFFFFF < wsum bytes bytes.length →
      ∃ t, execAll (computeCommands bytes) s = .next t ∧ t.err = 3)

/-! ### `RDR` -/

/-- 43_system.md R120: `RDR` returns the register its number names and changes no register, latched fault or not; its word; a larger
number does not exist. -/
def Obligations.ReadRegisterReturnsItsView : Prop :=
  (∀ r : RegNum, encode (.rdr r) = 0x07000000 ||| r.toBits.setWidth 32) ∧
  (∀ s : State,
    exec (.rdr .acc) s = .next { s with sent := s.sent ++ [⟨0, s.acc⟩] } ∧
    exec (.rdr .status) s = .next { s with sent := s.sent ++ [⟨0, BitVec.ofNat 32 s.err.toNat⟩] } ∧
    exec (.rdr .len) s = .next { s with sent := s.sent ++ [⟨0, BitVec.ofNat 32 s.len.toNat⟩] } ∧
    exec (.rdr .idx) s = .next { s with sent := s.sent ++ [⟨0, BitVec.ofNat 32 s.idx.toNat⟩] }) ∧
  (decode 0x07000000 = .legal (.rdr .acc) ∧ decode 0x07000001 = .legal (.rdr .status) ∧
    decode 0x07000002 = .legal (.rdr .len) ∧ decode 0x07000003 = .legal (.rdr .idx)) ∧
  (∀ w : Word, opField w = 0x07 → 3 < argField w → decode w = .illegal .mustBeZeroSet)

/-- 43_system.md R122, which the spec marks as derived: leaving out every `RDR` changes neither the state that is left nor the responses
of the remaining commands. -/
def Obligations.LeavingOutRegisterReadsChangesNothing : Prop :=
  ∀ (l : List Instr) (s : State),
    let stays : Instr → Bool := fun i => i.opcode != .rdr
    ∃ (t u : State) (rs : List Response),
      execAll l s = .next t ∧ execAll (l.filter stays) s = .next u ∧
      rs.length = l.length ∧ t.sent = s.sent ++ rs ∧
      u.sent = s.sent ++ ((l.zip rs).filter fun p => stays p.1).map Prod.snd ∧
      u.regs = t.regs ∧ u.buf = t.buf ∧ u.inputs = t.inputs ∧ u.reads = t.reads

/-! ### Encoding -/

/-- Decoding and encoding are inverse to each other on the legal words (30_encoding.md R60 to R63, R69; R74 states the same of the text
and is marked derived). -/
def Obligations.DecodeAndEncodeAgree : Prop :=
  (∀ i : Instr, decode (encode i) = .legal i) ∧
  (∀ (w : Word) (i : Instr), decode w = .legal i → encode i = w)

/-- 30_encoding.md R62: a word selects a command when `(C & mask) == match`; the seven rows exclude each other; a word that matches none is
illegal. -/
def Obligations.DecodeFollowsTheOpcodeMap : Prop :=
  ∀ w : Word,
    (w &&& 0xFFFFFFFF = 0x01000000 ↔ decode w = .legal .clr) ∧
    (w &&& 0xFFFF0000 = 0x02000000 ↔ ∃ v, decode w = .legal (.addw v)) ∧
    (w &&& 0xFFFFFF00 = 0x03000000 ↔ ∃ b, decode w = .legal (.addt b)) ∧
    (w &&& 0xFFFFFFFF = 0x04000000 ↔ decode w = .legal .fold) ∧
    (w &&& 0xFFFFFFFF = 0x05000000 ↔ decode w = .legal .fin) ∧
    (w &&& 0xFF000000 = 0x06000000 ↔ ∃ n, decode w = .legal (.run n)) ∧
    (w &&& 0xFFFFFFFC = 0x07000000 ↔ ∃ r, decode w = .legal (.rdr r)) ∧
    (∀ row ∈ opcodeTable, ∀ row' ∈ opcodeTable, row.selects w = true → row'.selects w = true → row = row') ∧
    ((∀ row ∈ opcodeTable, row.selects w = false) ↔ ∃ why, decode w = .illegal why)

/-- 30_encoding.md R64, R65, R73: exactly which words are illegal, and what a legal one is. -/
def Obligations.IllegalWordsAreTheReservedOnes : Prop :=
  (∀ w : Word,
    (opField w = 0 ∨ 8 ≤ opField w ↔ decode w = .illegal .reservedOpcode) ∧
    (opField w = 0x01 → (argField w = 0 → decode w = .legal .clr) ∧
      (argField w ≠ 0 → decode w = .illegal .mustBeZeroSet)) ∧
    (opField w = 0x02 → (argField w ≤ 0xFFFF → decode w = .legal (.addw (BitVec.ofNat 16 w.toNat))) ∧
      (0xFFFF < argField w → decode w = .illegal .mustBeZeroSet)) ∧
    (opField w = 0x03 → (argField w ≤ 0xFF → decode w = .legal (.addt (BitVec.ofNat 8 w.toNat))) ∧
      (0xFF < argField w → decode w = .illegal .mustBeZeroSet)) ∧
    (opField w = 0x04 → (argField w = 0 → decode w = .legal .fold) ∧
      (argField w ≠ 0 → decode w = .illegal .mustBeZeroSet)) ∧
    (opField w = 0x05 → (argField w = 0 → decode w = .legal .fin) ∧
      (argField w ≠ 0 → decode w = .illegal .mustBeZeroSet)) ∧
    (opField w = 0x06 → decode w = .legal (.run (BitVec.ofNat 24 w.toNat))) ∧
    (opField w = 0x07 → (argField w ≤ 3 → decode w = .legal (.rdr (RegNum.ofBits (BitVec.ofNat 2 w.toNat)))) ∧
      (3 < argField w → decode w = .illegal .mustBeZeroSet))) ∧
  decode 0x00000000 = .illegal .reservedOpcode ∧ decode 0xFFFFFFFF = .illegal .reservedOpcode

/-- 30_encoding.md R66, 60_exceptions.md R132: of the `2^32` words exactly 16,843,015 are legal; an illegal one is answered `(4, 0)` and
changes nothing else, latched fault or not. -/
def Obligations.IllegalWordsAreAnsweredAndCounted : Prop :=
  ((Finset.range (2 ^ 32)).filter fun c => decodeTableWord 32 c ≠ none).card = 16843015 ∧
  (∀ (s : State) (w : Word) (why : IllegalReason) (rest : List Input),
    s.inputs = .command w :: rest → decode w = .illegal why →
    step s = .next { s with inputs := rest, sent := s.sent ++ [⟨4, 0⟩] })

/-- Words written out from 95_test_vectors.md sections 3.2 to 3.5 decode to the commands they stand for. -/
def Obligations.WrittenWordsDecode : Prop :=
  decode 0x01000000 = .legal .clr ∧ decode 0x0200FFFF = .legal (.addw 0xFFFF) ∧
  decode 0x030000AB = .legal (.addt 0xAB) ∧ decode 0x04000000 = .legal .fold ∧
  decode 0x05000000 = .legal .fin ∧ decode 0x06FFFFFF = .legal (.run 16777215) ∧
  decode 0x06000000 = .legal (.run 0) ∧ decode 0x07000003 = .legal (.rdr .idx) ∧
  decode 0x02010000 = .illegal .mustBeZeroSet ∧ decode 0x08000000 = .illegal .reservedOpcode

/-- 30_encoding.md R69, R70, R71: an operand out of range is an assembly error on every line that has one, the bytes of `ADDP` and
`COMPUTE` included; in range a mnemonic line's word is `(OP << 24) | operand`, and a register name stands for its number; no mnemonic
line emits an illegal word, and `.word` emits its word unchanged. -/
def Obligations.SourceLinesAssembleInRange : Prop :=
  (assemble .clr = some [BitVec.ofNat 32 (0x01 * 2 ^ 24)] ∧ assemble .fold = some [BitVec.ofNat 32 (0x04 * 2 ^ 24)] ∧
    assemble .fin = some [BitVec.ofNat 32 (0x05 * 2 ^ 24)]) ∧
  (∀ v : Nat, assemble (.addw v) = if v ≤ 0xFFFF then some [BitVec.ofNat 32 (0x02 * 2 ^ 24 + v)] else none) ∧
  (∀ v : Nat, assemble (.addt v) = if v ≤ 0xFF then some [BitVec.ofNat 32 (0x03 * 2 ^ 24 + v)] else none) ∧
  (∀ v : Nat, assemble (.run v) = if v ≤ 0xFFFFFF then some [BitVec.ofNat 32 (0x06 * 2 ^ 24 + v)] else none) ∧
  (∀ v : Nat, assemble (.rdr v) = if v ≤ 3 then some [BitVec.ofNat 32 (0x07 * 2 ^ 24 + v)] else none) ∧
  (assemble (.rdrNamed .acc) = assemble (.rdr 0) ∧ assemble (.rdrNamed .status) = assemble (.rdr 1) ∧
    assemble (.rdrNamed .len) = assemble (.rdr 2) ∧ assemble (.rdrNamed .idx) = assemble (.rdr 3)) ∧
  (∀ v : Nat, assemble (.word v) = if v ≤ 0xFFFFFFFF then some [BitVec.ofNat 32 v] else none) ∧
  (∀ hi lo : Nat, assemble (.addp hi lo) =
    if hi ≤ 0xFF ∧ lo ≤ 0xFF then some [BitVec.ofNat 32 (0x02 * 2 ^ 24 + (hi * 256 + lo))] else none) ∧
  (∀ vs : List Nat, assemble (.compute vs) = none ↔ vs = [] ∨ ∃ v ∈ vs, 0xFF < v) ∧
  (∀ (vs : List Nat) (ws : List Word), assemble (.compute vs) = some ws →
    ws = (computeCommands (vs.map (BitVec.ofNat 8))).map encode) ∧
  (∀ (l : Line) (ws : List Word), assemble l = some ws → (∀ v, l ≠ .word v) →
    ∀ w ∈ ws, ∃ i, decode w = .legal i)

/-- 30_encoding.md R70: `ADDP hi, lo` is the one command `ADDW ((hi << 8) | lo)`. -/
def Obligations.AddPairIsAddWord : Prop :=
  (∀ hi lo : Nat, hi ≤ 0xFF → lo ≤ 0xFF → assemble (.addp hi lo) = assemble (.addw (hi <<< 8 ||| lo))) ∧
  (∀ hi lo : Nat, 0xFF < hi ∨ 0xFF < lo → assemble (.addp hi lo) = none) ∧
  assemble (.addp 0x12 0x34) = some [0x02001234]

/-- 30_encoding.md R74, which the spec marks as derived: assembling the printed text of any word, legal or not, gives the word back (the
digits printed and read are log 14). -/
def Obligations.PrintedTextAssemblesBack : Prop :=
  ∀ w : Word, assembleLine (disassemble w) = some [w]

/-! ### Faults and responses -/

/-- 60_exceptions.md R133: while a fault is latched `ADDW`, `ADDT`, `FOLD` and `FIN` answer the latched code and change nothing; `CLR`, `RUN`
and `RDR` are not refused. -/
def Obligations.LatchedFaultRefusesAccumulation : Prop :=
  ∀ s : State, s.err ≠ 0 →
    (∀ i : Instr, i.opcode = .addw ∨ i.opcode = .addt ∨ i = .fold ∨ i = .fin →
      exec i s = .next { s with sent := s.sent ++ [⟨s.err, 0⟩] }) ∧
    (∃ t, exec .clr s = .next t ∧ t.err = 0) ∧
    (∀ n : Length, exec (.run n) s = exec (.run n) { s with err := 0 }) ∧
    (∀ r : RegNum, ∃ (t : State) (d : Word), exec (.rdr r) s = .next t ∧ t.sent = s.sent ++ [⟨0, d⟩])

/-- 10_state.md R23 and 60_exceptions.md R131: `ERR` changes only by `CLR` and `RUN`, and by the AccOverflow of an addition when no fault is
latched; a code written is 1, 2 or 3 and is the code of the response. -/
def Obligations.LatchChangesByItsRulesOnly : Prop :=
  ∀ (i : Instr) (s : State), ∃ t, exec i s = .next t ∧
    (t.err = s.err ∨ i = .clr ∧ t.err = 0 ∨ (∃ n, i = .run n) ∨
      s.err = 0 ∧ t.err = 3 ∧ (i.opcode = .addw ∨ i.opcode = .addt)) ∧
    (t.err ≠ 0 → t.err ≠ s.err ∨ (∃ n, i = .run n) →
      1 ≤ t.err ∧ t.err ≤ 3 ∧ t.sent = s.sent ++ [⟨t.err, 0⟩])

/-- 60_exceptions.md R140: over all steps, a latched fault is cleared only by `CLR`, by the start of a `RUN` and by reset, and each of them
starts again from zero registers; no other command and no illegal word changes a latched code. -/
def Obligations.LatchedFaultClearedByThreeThings : Prop :=
  (∀ s t : State, step s = .next t → s.err ≠ 0 → t.err = 0 →
    ∃ (i : Input) (rest : List Input), s.inputs = i :: rest ∧
      (i = .reset ∨ (∃ w made, i = .resetDuring w made) ∨
        ∃ w, i.answeredWord = some w ∧ (decode w = .legal .clr ∨ ∃ n, decode w = .legal (.run n)))) ∧
  (∀ s : State, ∃ t, exec .clr s = .next t ∧ t.regs = ⟨0, 0, 0, 0⟩) ∧
  (∀ (n : Length) (s : State), exec (.run n) s = exec (.run n) { s with acc := 0, err := 0, len := 0, idx := 0 }) ∧
  (∀ (s : State) (rest : List Input), ∃ t, step { s with inputs := .reset :: rest } = .next t ∧ t.regs = ⟨0, 0, 0, 0⟩) ∧
  (∀ (i : Instr) (s t : State), exec i s = .next t → s.err ≠ 0 → t.err ≠ s.err → i = .clr ∨ ∃ n, i = .run n) ∧
  (∀ (s t : State) (w : Word) (why : IllegalReason) (rest : List Input),
    s.inputs = .command w :: rest → decode w = .illegal why → step s = .next t → t.err = s.err)

/-- 30_encoding.md R67: every command sends exactly one response; a failure carries no data; on success the data is `0`, the folded `ACC`,
its complement, or the register read. -/
def Obligations.EveryResponseHasItsShape : Prop :=
  (∀ (i : Instr) (s : State), ∃ (t : State) (r : Response),
    exec i s = .next t ∧ t.sent = s.sent ++ [r] ∧ (r.rcode ≠ 0 → r.rdata = 0) ∧
    (r.rcode = 0 →
      (i.opcode = .clr ∨ i.opcode = .addw ∨ i.opcode = .addt → r.rdata = 0) ∧
      (i = .fold → r.rdata = t.acc ∧ t.acc.toNat = fold s.acc.toNat ∧ r.rdata.toNat ≤ 0xFFFF) ∧
      (i = .fin → t.acc.toNat = fold s.acc.toNat) ∧
      (i = .fin ∨ i.opcode = .run → t.acc.toNat ≤ 0xFFFF ∧ r.rdata.toNat = 0xFFFF - t.acc.toNat) ∧
      (∀ x, i = .rdr x → r.rdata = readReg x s))) ∧
  (∀ (s : State) (w : Word) (why : IllegalReason) (rest : List Input),
    s.inputs = .command w :: rest → decode w = .illegal why →
    ∃ t, step s = .next t ∧ t.sent = s.sent ++ [⟨4, 0⟩])

/-- 30_encoding.md R72 and 70_reset_and_hazards.md R169 (marked derived there): a command word on the port, legal or not, is taken from it and
answered in one step with exactly one lawful response. `ERR` is at most 3 in every state that meets the invariant
(`StepKeepsTheInvariant`). -/
def Obligations.EveryCommandIsAnsweredOnce : Prop :=
  ∀ (s : State) (w : Word) (rest : List Input), s.err ≤ 3 → s.inputs = .command w :: rest →
    ∃ (t : State) (r : Response), step s = .next t ∧ t.inputs = rest ∧ t.sent = s.sent ++ [r] ∧ r.lawful

/-- 70_reset_and_hazards.md R169, which the spec marks as derived: as long as every input the machine meets keeps the
environment's premises, in the state it is taken in, the machine never stops: in `k` steps it takes `k` inputs, or, where fewer wait,
all of them, and then idles. That idling is a step is the model's reading (DEDUCED, log 2). -/
def Obligations.KeptPremisesNeverStop : Prop :=
  ∀ (k : Nat) (s : State),
    (∀ (j : Nat) (t : State) (i : Input) (rest : List Input), j < k → Host.Core.run Sys2Proof.core j s = .next t →
      t.inputs = i :: rest → i.keepsPremises { t with inputs := rest } = true) →
    ∃ t : State, Host.Core.run Sys2Proof.core k s = .next t ∧ t.inputs = s.inputs.drop k

/-! ### BUF -/

/-- 20_memory.md R42: no command writes BUF; every byte reads as before. -/
def Obligations.CommandsNeverWriteTheBuffer : Prop :=
  ∀ (i : Instr) (s : State), ∃ t, exec i s = .next t ∧ t.buf = s.buf ∧
    (∀ a : Nat, t.buf.read a = s.buf.read a) ∧ t.inputs = s.inputs

/-- 20_memory.md R41 on the model's BUF: a bound byte list is read back byte by byte, and a read is absent exactly at and above
`BUF_AVAIL`. That the environment binds BUF by an input, with nothing else changed, is the model's form (log 6) of what
20_memory.md R50 and R51 leave to the platform. -/
def Obligations.BoundBytesReadBack : Prop :=
  (∀ (m : Memory) (i : Nat), (m.read i = none ↔ m.avail ≤ i) ∧ m.bytes[i]? = m.read i) ∧
  (∀ (bytes : List Byte) (i : Nat),
    (Memory.ofBytes bytes).avail = bytes.length ∧ (Memory.ofBytes bytes).read i = bytes[i]?) ∧
  (∀ (s : State) (bytes : List Byte) (rest : List Input), s.inputs = .bind bytes :: rest →
    step s = .next { s with buf := Memory.ofBytes bytes, inputs := rest })

/-- The canonical form of BUF (the model's own, log 5): buffers that read the same everywhere are equal. -/
def Obligations.EqualReadingsAreEqualBuffers : Prop :=
  ∀ m m' : Memory, m.wf = true → m'.wf = true → (∀ i, m.read i = m'.read i) → m = m'

/-- The environment's write between commands (20_memory.md R50; the form is the model's, log 6): the byte written is read back and every other
byte reads as before; the registers and the other ports are untouched. -/
def Obligations.EnvironmentWriteReadsBack : Prop :=
  (∀ (m : Memory) (i j : Nat) (b : Byte), m.wf = true →
    (m.write i b).read j = if j = i ∧ i < m.avail then some b else m.read j) ∧
  (∀ (s : State) (i : Nat) (b : Byte) (rest : List Input), s.inputs = .poke i b :: rest →
    step s = .next { s with buf := s.buf.write i b, inputs := rest })

/-- The frame of the commands that read no memory: only `CLR` changes `LEN` and `IDX` (10_state.md R24, R25; headers of 40_accumulate.md
and 41_fold_finish.md); `FOLD` and `FIN` never change `ERR` (header of 41_fold_finish.md), and `RDR` changes neither `ERR` nor `ACC`
(43_system.md R120); `ADDW` and `ADDT` change `ERR` only by AccOverflow, which keeps `ACC` (40_accumulate.md R81, R82); no read is made
(20_memory.md R43) and every byte of BUF reads as before (20_memory.md R42). -/
def Obligations.FrameOfTheRegisterCommands : Prop :=
  ∀ (i : Instr) (s : State), (∀ n, i ≠ .run n) → ∃ t, exec i s = .next t ∧
    t.reads = s.reads ∧ t.inputs = s.inputs ∧ (∀ a : Nat, t.buf.read a = s.buf.read a) ∧
    (i ≠ .clr → t.len = s.len ∧ t.idx = s.idx) ∧
    (i = .fold ∨ i = .fin ∨ i.opcode = .rdr → t.err = s.err) ∧
    (i.opcode = .rdr → t.acc = s.acc) ∧
    (i.opcode = .addw ∨ i.opcode = .addt → t.err = s.err ∨ t.err = 3 ∧ t.acc = s.acc)

/-! ### Steps -/

/-- A step with a command word at the port that decodes is that command's execution after the word is taken (30_encoding.md R72, R73;
the port is the model's, log 1), and `withFetchWord` places such a word. -/
def Obligations.StepRunsTheDecodedCommand : Prop :=
  (∀ (s : State) (w : Word) (i : Instr) (rest : List Input), s.inputs = .command w :: rest → decode w = .legal i →
    step s = exec i { s with inputs := rest }) ∧
  (∀ (s : State) (nbits w : Nat) (i : Instr), decodeTableWord nbits w = some i →
    step (s.withFetchWord nbits w) = exec i s)

/-- Idle CSUM holds its state (60_exceptions.md R147, 10_state.md R22; that an idle step is a step is the model's choice, log 2). -/
def Obligations.IdleHoldsTheState : Prop :=
  ∀ s : State, s.inputs = [] → step s = .next s

/-- A buffer that becomes other byte lists, one after another, during a command (93_implementation_defined.md U3, 20_memory.md R50; the
form is the model's, log 7): a `RUN` during which any of them breaks the premise is refused by name, whatever stands at its end; when
all of them keep it, or the command is no `RUN`, the step is the usual one with the last of them as the buffer after it. -/
def Obligations.BufferChangeDuringRunIsRefused : Prop :=
  ∀ (s : State) (w : Word) (bound : List (List Byte)) (rest : List Input), s.inputs = .commandRebound w bound :: rest →
    ((∃ (n : Length) (bytes : List Byte), decode w = .legal (.run n) ∧ bytes ∈ bound ∧ ¬ (s.buf.avail = bytes.length ∧
        ∀ i < min n.toNat s.buf.avail, s.buf.read i = bytes[i]?)) →
      step s = .refused .bufferChangedDuringRun) ∧
    ((∀ (n : Length) (bytes : List Byte), decode w = .legal (.run n) → bytes ∈ bound → s.buf.avail = bytes.length ∧
        ∀ i < min n.toNat s.buf.avail, s.buf.read i = bytes[i]?) →
      ∃ t, step { s with inputs := .command w :: rest } = .next t ∧
        (bound = [] → step s = .next t) ∧
        (∀ bytes : List Byte, bound.getLast? = some bytes → step s = .next { t with buf := Memory.ofBytes bytes }))

/-- A read that is never answered (93_implementation_defined.md U4; the form is the model's, log 8): the step stops by name exactly when the
command issues more reads than are answered. -/
def Obligations.UnansweredReadStops : Prop :=
  ∀ (s : State) (w : Word) (answered : Nat) (rest : List Input), s.inputs = .commandUnanswered w answered :: rest →
    ∃ (t : State) (l : List Nat),
      step { s with inputs := .command w :: rest } = .next t ∧ t.reads = s.reads ++ l ∧
      (answered < l.length → step s = .fault .readNeverAnswered) ∧
      (l.length ≤ answered → step s = .next t)

/-! ### The invariant -/

/-- Every step keeps the invariant of the machine (10_state.md R23, R25; 60_exceptions.md R134, R135; 30_encoding.md R68; log 5). -/
def Obligations.StepKeepsTheInvariant : Prop :=
  ∀ s t : State, s.Inv → step s = .next t → t.Inv

/-- The reset state meets the invariant. -/
def Obligations.ResetMeetsTheInvariant : Prop := State.reset.Inv
end

