-- ==== Sys2Proof/Laws/Arithmetic.lean ====
section
/-! SUPPORT. What the machine's arithmetic computes, as numbers: the operands, the checked addition, the fold, the complement. -/

namespace Sys2Proof.Machine

open Sys2Proof.Algorithm

@[simp] theorem wordOperand_toNat (imm16 : Half) : (wordOperand imm16).toNat = imm16.toNat := by
  have := imm16.isLt
  simp only [wordOperand, BitVec.toNat_setWidth]
  omega

@[simp] theorem trailingOperand_toNat (b : Byte) : (trailingOperand b).toNat = b.toNat * 256 := by
  have := b.isLt
  simp only [trailingOperand, BitVec.toNat_shiftLeft, BitVec.toNat_setWidth, Nat.shiftLeft_eq]
  omega

@[simp] theorem pairOperand_toNat (hi lo : Byte) : (pairOperand hi lo).toNat = be16 hi lo := by
  have hlo := lo.isLt
  have hhi := hi.isLt
  have hsmall : hi.toNat % 2 ^ 32 = hi.toNat := by omega
  have hshift : hi.toNat <<< 8 % 2 ^ 32 = hi.toNat <<< 8 := by
    rw [Nat.shiftLeft_eq]
    omega
  simp only [pairOperand, be16, BitVec.toNat_or, BitVec.toNat_shiftLeft, BitVec.toNat_setWidth, hsmall, hshift]
  rw [Nat.mod_eq_of_lt (by omega : lo.toNat < 2 ^ 32), ← Nat.shiftLeft_add_eq_or_of_lt (by omega : lo.toNat < 2 ^ 8),
    Nat.shiftLeft_eq]

theorem be16_le (hi lo : Byte) : be16 hi lo ≤ 0xFFFF := by
  have := hi.isLt
  have := lo.isLt
  simp only [be16]
  omega

@[simp] theorem be16_zero (b : Byte) : be16 b 0#8 = b.toNat * 256 := by simp [be16]

/-- What the checked addition answers: the exact sum when it fits (40_accumulate.md rule R85). -/
theorem checkedAdd_of_fits {a w : Word} (h : a.toNat + w.toNat ≤ 0xFFFFFFFF) :
    checkedAdd a w = some (BitVec.ofNat 32 (a.toNat + w.toNat)) := if_pos h

/-- What the checked addition answers: nothing when the exact sum does not fit. -/
theorem checkedAdd_of_exceeds {a w : Word} (h : 0xFFFFFFFF < a.toNat + w.toNat) : checkedAdd a w = none :=
  if_neg (by simpa [Config.accMax] using h)

/-- All the checked addition can do. -/
theorem checkedAdd_cases (a w : Word) :
    (∃ r, checkedAdd a w = some r ∧ r.toNat = a.toNat + w.toNat) ∨
      (checkedAdd a w = none ∧ 0xFFFFFFFF < a.toNat + w.toNat) := by
  by_cases h : a.toNat + w.toNat ≤ 0xFFFFFFFF
  · refine .inl ⟨_, checkedAdd_of_fits h, ?_⟩
    rw [BitVec.toNat_ofNat, Nat.mod_eq_of_lt (by omega)]
  · exact .inr ⟨checkedAdd_of_exceeds (by omega), by omega⟩

theorem highHalf_toNat (a : Word) : (a.extractLsb' 16 16).toNat = a.toNat / 65536 := by
  have := a.isLt
  simp only [BitVec.extractLsb'_toNat, Nat.shiftRight_eq_div_pow]
  omega

theorem lowHalf_toNat (a : Word) : (a.extractLsb' 0 16).toNat = a.toNat % 65536 := by
  simp [BitVec.extractLsb'_toNat]

theorem fold1_eq (a : Nat) : fold1 a = a % 65536 + a / 65536 := by
  simp only [fold1, Nat.shiftRight_eq_div_pow]
  rw [show (0xFFFF : Nat) = 2 ^ 16 - 1 from rfl, Nat.and_two_pow_sub_one_eq_mod]

/-- One application of the folder is `fold1` (00_scope.md rule R10). -/
theorem foldOnce_toNat (a : Word) : (foldOnce a).toNat = fold1 a.toNat := by
  have := a.isLt
  rw [fold1_eq, foldOnce, BitVec.toNat_add, BitVec.toNat_setWidth, BitVec.toNat_setWidth, highHalf_toNat, lowHalf_toNat]
  omega

theorem highHalf_eq_zero_iff (a : Word) : a.extractLsb' 16 16 = 0 ↔ a.toNat >>> 16 = 0 := by
  rw [← BitVec.toNat_inj, highHalf_toNat, Nat.shiftRight_eq_div_pow]
  simp

theorem foldLoop_toNat (k : Nat) (a : Word) : (foldLoop k a).toNat = foldRounds k a.toNat := by
  induction k generalizing a with
  | zero => rfl
  | succ k ih =>
    simp only [foldLoop, foldRounds, highHalf_eq_zero_iff]
    split
    · rfl
    · rw [ih, foldOnce_toNat]

/-- The folded accumulator is `fold` (00_scope.md rule R11). -/
@[simp] theorem foldAcc_toNat (a : Word) : (foldAcc a).toNat = fold a.toNat := foldLoop_toNat _ a

/-- `fold` by cases: no round, one round, or two (00_scope.md rule R12 (c)). -/
theorem fold_cases {a : Nat} (h : a < 2 ^ 32) :
    (a ≤ 0xFFFF ∧ fold a = a) ∨
      (0xFFFF < a ∧ a % 65536 + a / 65536 ≤ 0xFFFF ∧ fold a = a % 65536 + a / 65536) ∨
      (0xFFFF < a ∧ 0xFFFF < a % 65536 + a / 65536 ∧ fold a = a % 65536 + a / 65536 - 0xFFFF) := by
  simp only [fold, Config.foldLimit, foldRounds, fold1_eq, Nat.shiftRight_eq_div_pow]
  split
  · omega
  · split <;> omega

theorem fold_le {a : Nat} (h : a < 2 ^ 32) : fold a ≤ 0xFFFF := by
  rcases fold_cases h with ⟨_, _⟩ | ⟨_, _, _⟩ | ⟨_, _, _⟩ <;> omega

theorem foldAcc_le (a : Word) : (foldAcc a).toNat ≤ 0xFFFF := by
  rw [foldAcc_toNat]
  exact fold_le a.isLt

/-- After the fold the loop of 41_fold_finish.md rule R90 is over. -/
theorem foldAcc_done (a : Word) : (foldAcc a).extractLsb' 16 16 = 0 := by
  have := foldAcc_le a
  rw [highHalf_eq_zero_iff, Nat.shiftRight_eq_div_pow]
  omega

/-- The complement of a folded value is `cpl16` (00_scope.md rule R13). -/
theorem complement16_toNat {a : Word} (h : a.toNat ≤ 0xFFFF) : (complement16 a).toNat = cpl16 a.toNat := by
  have := a.isLt
  simp only [complement16, cpl16, BitVec.toNat_setWidth, BitVec.extractLsb'_toNat, BitVec.toNat_not,
    Nat.shiftRight_zero]
  omega

theorem complement16_le (a : Word) : (complement16 a).toNat ≤ 0xFFFF := by
  have := ((~~~a).extractLsb' 0 16).isLt
  simp only [complement16, BitVec.toNat_setWidth]
  omega

end Sys2Proof.Machine
end

