-- ==== Sys2Proof/Laws/Decoding.lean ====
section
/-! SUPPORT. The fields of a command word as numbers, and the decoder in their terms. -/

namespace Sys2Proof

theorem opField_toNat (w : Word) : (opField w).toNat = w.toNat / 2 ^ 24 := by
  have := w.isLt
  simp only [opField, BitVec.extractLsb'_toNat, Nat.shiftRight_eq_div_pow]
  omega

theorem argField_toNat (w : Word) : (argField w).toNat = w.toNat % 2 ^ 24 := by
  simp [argField, BitVec.extractLsb'_toNat]

/-- A word is its opcode field and its argument field (30_encoding.md rule R60). -/
theorem word_toNat (w : Word) : w.toNat = (opField w).toNat * 2 ^ 24 + (argField w).toNat := by
  rw [opField_toNat, argField_toNat]
  omega

/-- No bit at or above position `k`, said with a mask and said as a bound. -/
theorem and_not_mask_eq_zero_iff (a : Length) (k : Nat) :
    a &&& ~~~BitVec.ofNat 24 (2 ^ k - 1) = 0 ↔ a.toNat < 2 ^ k := by
  have hmask : ∀ i < 24, (BitVec.ofNat 24 (2 ^ k - 1)).getLsbD i = decide (i < k) := by
    intro i hi
    rw [BitVec.getLsbD_ofNat, Nat.testBit_two_pow_sub_one]
    simp [hi]
  constructor
  · intro h
    apply Nat.lt_pow_two_of_testBit
    intro i hi
    by_cases h24 : i < 24
    · have hbit := congrArg (fun b => b.getLsbD i) h
      simp only [BitVec.getLsbD_and, BitVec.getLsbD_not, hmask i h24, show ¬ i < k by omega] at hbit
      simpa [h24, BitVec.getLsbD] using hbit
    · exact Nat.testBit_lt_two_pow (lt_of_lt_of_le a.isLt (Nat.pow_le_pow_right (by omega) (by omega)))
  · intro h
    apply BitVec.eq_of_getLsbD_eq
    intro i hi
    simp only [BitVec.getLsbD_and, BitVec.getLsbD_not, hmask i hi]
    by_cases hk : i < k
    · simp [hk]
    · have : a.getLsbD i = false :=
        Nat.testBit_lt_two_pow (lt_of_lt_of_le h (Nat.pow_le_pow_right (by omega) (by omega)))
      simp [this]

/-- The operand bits of each format, as a bound on the argument field (30_encoding.md rules R61, R65). -/
theorem mustBeZero_iff (f : Format) (a : Length) :
    a &&& ~~~f.operandMask = 0 ↔ a.toNat ≤ f.operandMask.toNat := by
  cases f with
  | z => simpa [Format.operandMask] using and_not_mask_eq_zero_iff a 0
  | w => simpa [Format.operandMask, Nat.lt_succ_iff] using and_not_mask_eq_zero_iff a 16
  | b => simpa [Format.operandMask, Nat.lt_succ_iff] using and_not_mask_eq_zero_iff a 8
  | l => simpa [Format.operandMask, Nat.lt_succ_iff] using and_not_mask_eq_zero_iff a 24
  | r => simpa [Format.operandMask, Nat.lt_succ_iff] using and_not_mask_eq_zero_iff a 2

theorem opcodeOf_code (op : Opcode) : opcodeOf op.code = some op := by cases op <;> rfl

/-- Every opcode a byte names has that byte as its code. -/
theorem code_of_opcodeOf {b : Byte} {op : Opcode} (h : opcodeOf b = some op) : b = op.code := by
  revert b op
  decide

/-- A byte names no opcode exactly when it is reserved (30_encoding.md rule R64). -/
theorem opcodeOf_eq_none_iff (b : Byte) : opcodeOf b = none ↔ b = 0 ∨ 8 ≤ b := by
  revert b
  decide

/-- The decoder on a word whose opcode is defined (30_encoding.md rule R73). -/
theorem decode_of_opcode {w : Word} {op : Opcode} (h : opcodeOf (opField w) = some op) :
    decode w = if argField w ≤ op.format.operandMask then .legal (op.instr (argField w)) else .illegal .mustBeZeroSet := by
  simp only [decode, h, mustBeZero_iff, BitVec.le_def]

/-- The decoder on a word whose opcode is reserved (30_encoding.md rule R64). -/
theorem decode_of_reserved {w : Word} (h : opcodeOf (opField w) = none) : decode w = .illegal .reservedOpcode := by
  simp only [decode, h]

end Sys2Proof
end

