-- ==== Sys2Proof/Laws/Memory.lean ====
section
/-! SUPPORT. The canonical form of BUF: every memory operation keeps it, and the reset state has it. -/

namespace Sys2Proof.Machine

theorem Memory.cellsWf_cons {n k i : Nat} {b : Byte} {rest : List Host.Cell} :
    Memory.cellsWf n k ((i, b) :: rest) = true ↔
      k ≤ i ∧ i < n ∧ b ≠ Config.unlistedByte ∧ Memory.cellsWf n (i + 1) rest = true := by
  simp [Memory.cellsWf, and_assoc]

/-- Cells canonical from an index on are canonical from any lower one. -/
theorem Memory.cellsWf_mono {n j k : Nat} (h : j ≤ k) {cells : List Host.Cell}
    (hw : Memory.cellsWf n k cells = true) : Memory.cellsWf n j cells = true := by
  cases cells with
  | nil => rfl
  | cons c rest =>
    obtain ⟨hk, hi, hb, hr⟩ := Memory.cellsWf_cons.mp hw
    exact Memory.cellsWf_cons.mpr ⟨by omega, hi, hb, hr⟩

theorem Memory.setCell_wf {n k i : Nat} {b : Byte} {cells : List Host.Cell} (hk : k ≤ i) (hi : i < n)
    (hw : Memory.cellsWf n k cells = true) : Memory.cellsWf n k (Memory.setCell i b cells) = true := by
  induction cells generalizing k with
  | nil =>
    simp only [Memory.setCell]
    split
    · rfl
    · next hb => exact Memory.cellsWf_cons.mpr ⟨hk, hi, hb, rfl⟩
  | cons c rest ih =>
    obtain ⟨j, d⟩ := c
    obtain ⟨hkj, hj, hd, hr⟩ := Memory.cellsWf_cons.mp hw
    simp only [Memory.setCell]
    split
    · split
      · exact hw
      · next hij hb =>
        exact Memory.cellsWf_cons.mpr ⟨hk, hi, hb, Memory.cellsWf_cons.mpr ⟨by omega, hj, hd, hr⟩⟩
    · split
      · next heq =>
        subst heq
        split
        · exact Memory.cellsWf_mono (by omega) hr
        · next hb => exact Memory.cellsWf_cons.mpr ⟨hkj, hi, hb, hr⟩
      · exact Memory.cellsWf_cons.mpr ⟨hkj, hj, hd, ih (by omega) hr⟩

/-- The environment's write keeps the canonical form. -/
theorem Memory.write_wf {m : Memory} (h : m.wf = true) (i : Nat) (b : Byte) : (m.write i b).wf = true := by
  simp only [Memory.write]
  split
  · next hi => exact Memory.setCell_wf (Nat.zero_le i) hi h
  · exact h

theorem Memory.cellsFrom_wf (i : Nat) (bytes : List Byte) :
    Memory.cellsWf (i + bytes.length) i (Memory.cellsFrom i bytes) = true := by
  induction bytes generalizing i with
  | nil => rfl
  | cons b rest ih =>
    have hr := ih (i + 1)
    rw [show i + 1 + rest.length = i + (b :: rest).length by simp; omega] at hr
    simp only [Memory.cellsFrom]
    split
    · exact Memory.cellsWf_mono (by omega) hr
    · next hb => exact Memory.cellsWf_cons.mpr ⟨le_refl i, by simp, hb, hr⟩

/-- A bound buffer is in canonical form. -/
theorem Memory.ofBytes_wf (bytes : List Byte) : (Memory.ofBytes bytes).wf = true := by
  simpa [Memory.wf, Memory.ofBytes] using Memory.cellsFrom_wf 0 bytes

/-- The reset state's buffer is in canonical form. -/
theorem reset_buf_wf : State.reset.buf.wf = true := rfl

/-- A byte read is present exactly below `BUF_AVAIL` (20_memory.md rule R41). -/
theorem Memory.read_eq_some {m : Memory} {i : Nat} (h : i < m.avail) :
    m.read i = some (Memory.lookup m.cells i) := if_pos h

theorem Memory.read_eq_none {m : Memory} {i : Nat} (h : m.avail ≤ i) : m.read i = none := if_neg (by omega)

@[simp] theorem Memory.bytes_length (m : Memory) : m.bytes.length = m.avail := by simp [Memory.bytes]

theorem Memory.bytes_getElem? (m : Memory) (i : Nat) : m.bytes[i]? = m.read i := by
  by_cases h : i < m.avail <;> simp [Memory.bytes, Memory.read, h]

theorem Memory.lookup_cellsFrom_before (k : Nat) (bytes : List Byte) (i : Nat) (h : i < k) :
    Memory.lookup (Memory.cellsFrom k bytes) i = Config.unlistedByte := by
  induction bytes generalizing k with
  | nil => rfl
  | cons b rest ih =>
    simp only [Memory.cellsFrom]
    split
    · exact ih (k + 1) (by omega)
    · rw [Memory.lookup, if_neg (by omega)]
      exact ih (k + 1) (by omega)

theorem Memory.lookup_cellsFrom (k : Nat) (bytes : List Byte) (i : Nat) (h : i < bytes.length) :
    Memory.lookup (Memory.cellsFrom k bytes) (k + i) = bytes[i] := by
  induction bytes generalizing k i with
  | nil => simp at h
  | cons b rest ih =>
    simp only [Memory.cellsFrom]
    cases i with
    | zero =>
      split
      · next hb =>
        have hbefore := Memory.lookup_cellsFrom_before (k + 1) rest k (by omega)
        simpa [hb] using hbefore
      · simp [Memory.lookup]
    | succ i =>
      have hi : i < rest.length := by simpa using h
      have hk : k + (i + 1) = k + 1 + i := by omega
      split
      · rw [hk, ih (k + 1) i hi, List.getElem_cons_succ]
      · rw [Memory.lookup, if_neg (by omega), hk, ih (k + 1) i hi, List.getElem_cons_succ]

/-- The bytes of a bound buffer are the bytes it was bound to. -/
@[simp] theorem Memory.ofBytes_bytes (bytes : List Byte) : (Memory.ofBytes bytes).bytes = bytes := by
  refine List.ext_getElem (by simp [Memory.ofBytes]) fun i h h' => ?_
  have := Memory.lookup_cellsFrom 0 bytes i h'
  simpa [Memory.bytes, Memory.ofBytes] using this

@[simp] theorem Memory.ofBytes_avail (bytes : List Byte) : (Memory.ofBytes bytes).avail = bytes.length := rfl

end Sys2Proof.Machine
end

