-- ==== Sys2Proof/Laws/State.lean ====
section
/-! SUPPORT. One lemma per field per update of State, true by rfl, so that no proof unfolds a record update. -/

namespace Sys2Proof.Machine

@[simp] theorem respond_acc (c : Code) (d : Word) (s : State) : (respond c d s).acc = s.acc := rfl
@[simp] theorem respond_err (c : Code) (d : Word) (s : State) : (respond c d s).err = s.err := rfl
@[simp] theorem respond_len (c : Code) (d : Word) (s : State) : (respond c d s).len = s.len := rfl
@[simp] theorem respond_idx (c : Code) (d : Word) (s : State) : (respond c d s).idx = s.idx := rfl
@[simp] theorem respond_buf (c : Code) (d : Word) (s : State) : (respond c d s).buf = s.buf := rfl
@[simp] theorem respond_inputs (c : Code) (d : Word) (s : State) : (respond c d s).inputs = s.inputs := rfl
@[simp] theorem respond_sent (c : Code) (d : Word) (s : State) : (respond c d s).sent = s.sent ++ [⟨c, d⟩] := rfl
@[simp] theorem respond_reads (c : Code) (d : Word) (s : State) : (respond c d s).reads = s.reads := rfl

@[simp] theorem raise_acc (f : FaultCode) (s : State) : (raise f s).acc = s.acc := rfl
@[simp] theorem raise_err (f : FaultCode) (s : State) : (raise f s).err = f.code := rfl
@[simp] theorem raise_len (f : FaultCode) (s : State) : (raise f s).len = s.len := rfl
@[simp] theorem raise_idx (f : FaultCode) (s : State) : (raise f s).idx = s.idx := rfl
@[simp] theorem raise_buf (f : FaultCode) (s : State) : (raise f s).buf = s.buf := rfl
@[simp] theorem raise_inputs (f : FaultCode) (s : State) : (raise f s).inputs = s.inputs := rfl
@[simp] theorem raise_sent (f : FaultCode) (s : State) : (raise f s).sent = s.sent ++ [⟨f.code, 0⟩] := rfl
@[simp] theorem raise_reads (f : FaultCode) (s : State) : (raise f s).reads = s.reads := rfl

@[simp] theorem clearRegs_acc (s : State) : (clearRegs s).acc = 0 := rfl
@[simp] theorem clearRegs_err (s : State) : (clearRegs s).err = 0 := rfl
@[simp] theorem clearRegs_len (s : State) : (clearRegs s).len = 0 := rfl
@[simp] theorem clearRegs_idx (s : State) : (clearRegs s).idx = 0 := rfl
@[simp] theorem clearRegs_buf (s : State) : (clearRegs s).buf = s.buf := rfl
@[simp] theorem clearRegs_inputs (s : State) : (clearRegs s).inputs = s.inputs := rfl
@[simp] theorem clearRegs_sent (s : State) : (clearRegs s).sent = s.sent := rfl
@[simp] theorem clearRegs_reads (s : State) : (clearRegs s).reads = s.reads := rfl

@[simp] theorem illegalCommand_acc (s : State) : (illegalCommand s).acc = s.acc := rfl
@[simp] theorem illegalCommand_err (s : State) : (illegalCommand s).err = s.err := rfl
@[simp] theorem illegalCommand_len (s : State) : (illegalCommand s).len = s.len := rfl
@[simp] theorem illegalCommand_idx (s : State) : (illegalCommand s).idx = s.idx := rfl
@[simp] theorem illegalCommand_buf (s : State) : (illegalCommand s).buf = s.buf := rfl
@[simp] theorem illegalCommand_inputs (s : State) : (illegalCommand s).inputs = s.inputs := rfl
@[simp] theorem illegalCommand_sent (s : State) : (illegalCommand s).sent = s.sent ++ [⟨codeIllegal, 0⟩] := rfl
@[simp] theorem illegalCommand_reads (s : State) : (illegalCommand s).reads = s.reads := rfl

@[simp] theorem refuseLatched_acc (s : State) : (refuseLatched s).acc = s.acc := rfl
@[simp] theorem refuseLatched_err (s : State) : (refuseLatched s).err = s.err := rfl
@[simp] theorem refuseLatched_len (s : State) : (refuseLatched s).len = s.len := rfl
@[simp] theorem refuseLatched_idx (s : State) : (refuseLatched s).idx = s.idx := rfl
@[simp] theorem refuseLatched_buf (s : State) : (refuseLatched s).buf = s.buf := rfl
@[simp] theorem refuseLatched_inputs (s : State) : (refuseLatched s).inputs = s.inputs := rfl
@[simp] theorem refuseLatched_sent (s : State) : (refuseLatched s).sent = s.sent ++ [⟨s.err, 0⟩] := rfl
@[simp] theorem refuseLatched_reads (s : State) : (refuseLatched s).reads = s.reads := rfl

@[simp] theorem foldInPlace_acc (s : State) : (foldInPlace s).acc = foldAcc s.acc := rfl
@[simp] theorem foldInPlace_err (s : State) : (foldInPlace s).err = s.err := rfl
@[simp] theorem foldInPlace_len (s : State) : (foldInPlace s).len = s.len := rfl
@[simp] theorem foldInPlace_idx (s : State) : (foldInPlace s).idx = s.idx := rfl
@[simp] theorem foldInPlace_buf (s : State) : (foldInPlace s).buf = s.buf := rfl
@[simp] theorem foldInPlace_inputs (s : State) : (foldInPlace s).inputs = s.inputs := rfl
@[simp] theorem foldInPlace_sent (s : State) : (foldInPlace s).sent = s.sent := rfl
@[simp] theorem foldInPlace_reads (s : State) : (foldInPlace s).reads = s.reads := rfl

@[simp] theorem foldAndRespond_acc (s : State) : (foldAndRespond s).acc = foldAcc s.acc := rfl
@[simp] theorem foldAndRespond_err (s : State) : (foldAndRespond s).err = s.err := rfl
@[simp] theorem foldAndRespond_len (s : State) : (foldAndRespond s).len = s.len := rfl
@[simp] theorem foldAndRespond_idx (s : State) : (foldAndRespond s).idx = s.idx := rfl
@[simp] theorem foldAndRespond_buf (s : State) : (foldAndRespond s).buf = s.buf := rfl
@[simp] theorem foldAndRespond_inputs (s : State) : (foldAndRespond s).inputs = s.inputs := rfl
@[simp] theorem foldAndRespond_sent (s : State) : (foldAndRespond s).sent = s.sent ++ [⟨codeOk, foldAcc s.acc⟩] := rfl
@[simp] theorem foldAndRespond_reads (s : State) : (foldAndRespond s).reads = s.reads := rfl

@[simp] theorem finishAndRespond_acc (s : State) : (finishAndRespond s).acc = foldAcc s.acc := rfl
@[simp] theorem finishAndRespond_err (s : State) : (finishAndRespond s).err = s.err := rfl
@[simp] theorem finishAndRespond_len (s : State) : (finishAndRespond s).len = s.len := rfl
@[simp] theorem finishAndRespond_idx (s : State) : (finishAndRespond s).idx = s.idx := rfl
@[simp] theorem finishAndRespond_buf (s : State) : (finishAndRespond s).buf = s.buf := rfl
@[simp] theorem finishAndRespond_inputs (s : State) : (finishAndRespond s).inputs = s.inputs := rfl
@[simp] theorem finishAndRespond_sent (s : State) : (finishAndRespond s).sent = s.sent ++ [⟨codeOk, complement16 (foldAcc s.acc)⟩] := rfl
@[simp] theorem finishAndRespond_reads (s : State) : (finishAndRespond s).reads = s.reads := rfl

@[simp] theorem runStart_acc (n : Length) (s : State) : (runStart n s).acc = 0 := rfl
@[simp] theorem runStart_err (n : Length) (s : State) : (runStart n s).err = 0 := rfl
@[simp] theorem runStart_len (n : Length) (s : State) : (runStart n s).len = n := rfl
@[simp] theorem runStart_idx (n : Length) (s : State) : (runStart n s).idx = 0 := rfl
@[simp] theorem runStart_buf (n : Length) (s : State) : (runStart n s).buf = s.buf := rfl
@[simp] theorem runStart_inputs (n : Length) (s : State) : (runStart n s).inputs = s.inputs := rfl
@[simp] theorem runStart_sent (n : Length) (s : State) : (runStart n s).sent = s.sent := rfl
@[simp] theorem runStart_reads (n : Length) (s : State) : (runStart n s).reads = s.reads := rfl

@[simp] theorem offerCommand_acc (w : Word) (s : State) : (offerCommand w s).acc = s.acc := rfl
@[simp] theorem offerCommand_err (w : Word) (s : State) : (offerCommand w s).err = s.err := rfl
@[simp] theorem offerCommand_len (w : Word) (s : State) : (offerCommand w s).len = s.len := rfl
@[simp] theorem offerCommand_idx (w : Word) (s : State) : (offerCommand w s).idx = s.idx := rfl
@[simp] theorem offerCommand_buf (w : Word) (s : State) : (offerCommand w s).buf = s.buf := rfl
@[simp] theorem offerCommand_inputs (w : Word) (s : State) : (offerCommand w s).inputs = .command w :: s.inputs := rfl
@[simp] theorem offerCommand_sent (w : Word) (s : State) : (offerCommand w s).sent = s.sent := rfl
@[simp] theorem offerCommand_reads (w : Word) (s : State) : (offerCommand w s).reads = s.reads := rfl

@[simp] theorem respond_regs (c : Code) (d : Word) (s : State) : (respond c d s).regs = s.regs := rfl
@[simp] theorem refuseLatched_regs (s : State) : (refuseLatched s).regs = s.regs := rfl
@[simp] theorem illegalCommand_regs (s : State) : (illegalCommand s).regs = s.regs := rfl
@[simp] theorem clearRegs_regs (s : State) : (clearRegs s).regs = ⟨0, 0, 0, 0⟩ := rfl

/-- A state is its fields. -/
theorem State.ext_fields {s t : State} (ha : s.acc = t.acc) (he : s.err = t.err) (hl : s.len = t.len)
    (hi : s.idx = t.idx) (hb : s.buf = t.buf) (hn : s.inputs = t.inputs) (hs : s.sent = t.sent)
    (hr : s.reads = t.reads) : s = t := by
  cases s; cases t; simp_all

end Sys2Proof.Machine
end

