-- ==== Sys2Proof/Laws/Words.lean ====
section
/-! SUPPORT. How `words` and `wsum` grow with the length: by a pair, and by a trailing byte. -/

namespace Sys2Proof.Algorithm

open Sys2Proof.Machine

theorem wordsOf_append {l r : List Byte} (h : l.length % 2 = 0) : wordsOf (l ++ r) = wordsOf l ++ wordsOf r := by
  induction l using wordsOf.induct with
  | case1 => rfl
  | case2 b => simp at h
  | case3 hi lo rest ih => simp [wordsOf, ih (by simp at h; omega)]

theorem wordsOf_length (l : List Byte) : (wordsOf l).length = (l.length + 1) / 2 := by
  induction l using wordsOf.induct with
  | case1 => rfl
  | case2 b => simp [wordsOf]
  | case3 hi lo rest ih => simp only [wordsOf, List.length_cons, ih]; omega

theorem wordsOf_le {l : List Byte} : ∀ w ∈ wordsOf l, w ≤ 0xFFFF := by
  induction l using wordsOf.induct with
  | case1 => simp [wordsOf]
  | case2 b =>
    intro w hw
    obtain rfl : w = be16 b 0 := by simpa [wordsOf] using hw
    exact be16_le b 0
  | case3 hi lo rest ih =>
    intro w hw
    rcases List.mem_cons.mp hw with rfl | hw
    · exact be16_le hi lo
    · exact ih w hw

/-- The words of an even number of bytes are the first words of the whole list. -/
theorem wordsOf_take (l : List Byte) (k : Nat) : wordsOf (l.take (2 * k)) = (wordsOf l).take k := by
  induction l using wordsOf.induct generalizing k with
  | case1 => simp [wordsOf]
  | case2 b =>
    cases k with
    | zero => simp [wordsOf]
    | succ k => simp [wordsOf, show 2 * (k + 1) = 2 * k + 1 + 1 from rfl]
  | case3 hi lo rest ih =>
    cases k with
    | zero => simp [wordsOf]
    | succ k => simp [wordsOf, show 2 * (k + 1) = 2 * k + 1 + 1 from rfl, ih]

@[simp] theorem wsum_zero (data : List Byte) : wsum data 0 = 0 := by simp [wsum, words, wordsOf]

/-- A pair adds its big-endian word (00_scope.md rule R8 (a)). -/
theorem wsum_pair {data : List Byte} {k : Nat} {hi lo : Byte} (hhi : data[2 * k]? = some hi)
    (hlo : data[2 * k + 1]? = some lo) : wsum data (2 * k + 2) = wsum data (2 * k) + be16 hi lo := by
  have hlen := (List.getElem?_eq_some_iff.mp hlo).1
  have htake : data.take (2 * k + 2) = data.take (2 * k) ++ [hi, lo] := by
    rw [List.take_add_one, List.take_add_one, hhi, hlo]
    simp
  have heven : (data.take (2 * k)).length % 2 = 0 := by
    rw [List.length_take]
    omega
  simp [wsum, words, htake, wordsOf_append heven, wordsOf]

/-- A trailing byte adds itself in the high position (00_scope.md rule R8 (b)). -/
theorem wsum_trailing {data : List Byte} {k : Nat} {b : Byte} (hb : data[2 * k]? = some b) :
    wsum data (2 * k + 1) = wsum data (2 * k) + b.toNat * 256 := by
  have hlen := (List.getElem?_eq_some_iff.mp hb).1
  have htake : data.take (2 * k + 1) = data.take (2 * k) ++ [b] := by
    rw [List.take_add_one, hb]
    simp
  have heven : (data.take (2 * k)).length % 2 = 0 := by
    rw [List.length_take]
    omega
  simp [wsum, words, htake, wordsOf_append heven, wordsOf]

/-- The sum of a buffer of `0xFF` bytes: the largest sum of its length. -/
theorem wsum_replicate {n k : Nat} (h : 2 * k ≤ n) :
    wsum (List.replicate n (0xFF : Byte)) (2 * k) = 65535 * k := by
  induction k with
  | zero => simp
  | succ k ih =>
    have := wsum_pair (data := List.replicate n (0xFF : Byte)) (k := k) (hi := 0xFF) (lo := 0xFF)
      (by rw [List.getElem?_replicate, if_pos (by omega)]) (by rw [List.getElem?_replicate, if_pos (by omega)])
    rw [Nat.mul_succ, this, ih (by omega)]
    simp [be16]
    omega

theorem wsum_replicate_trailing {n k : Nat} (h : 2 * k < n) :
    wsum (List.replicate n (0xFF : Byte)) (2 * k + 1) = 65535 * k + 65280 := by
  rw [wsum_trailing (b := 0xFF) (by rw [List.getElem?_replicate, if_pos h]), wsum_replicate (by omega)]
  rfl

end Sys2Proof.Algorithm
end

