-- ==== Sys2Proof/Laws/Run.lean ====
section
/-! SUPPORT. What the loops of `RUN` do, said once: `midRun` is the state with the first `j` bytes added, `stopRun` the state in
which word `k` ended the command, and each part of `RUN` goes from one to the other. -/

namespace Sys2Proof.Machine

open Sys2Proof.Algorithm

/-- `RUN n` from `s` with the first `j` bytes of BUF added (10_state.md rule R25). -/
def midRun (s : State) (n : Length) (j : Nat) : State :=
  { s with
    acc := BitVec.ofNat 32 (wsum s.buf.bytes j), err := 0, len := n, idx := BitVec.ofNat 24 j,
    reads := s.reads ++ List.range j }

/-- Word `k` of `RUN n` needs an index at or above `BUF_AVAIL` (42_run.md rule R108). -/
def lacksByte (s : State) (n : Length) (k : Nat) : Prop := s.buf.avail ≤ min (2 * k + 1) (n.toNat - 1)

/-- Word `k` of `RUN n` is one that ends the command (42_run.md rule R108). -/
def stopsAt (s : State) (n : Length) (k : Nat) : Prop :=
  lacksByte s n k ∨ 0xFFFFFFFF < wsum s.buf.bytes (min (2 * k + 2) n.toNat)

/-- `RUN n` from `s` ended at word `k` with a code (42_run.md rules R106, R107). -/
def stopRun (s : State) (n : Length) (k : Nat) (f : FaultCode) : State :=
  raise f { midRun s n (2 * k) with
    reads := s.reads ++ List.range (min (min (2 * k + 2) n.toNat) (s.buf.avail + 1)) }

theorem runStart_eq_midRun (n : Length) (s : State) : runStart n s = midRun s n 0 := by
  simp [runStart, clearRegs, midRun]

theorem midRun_acc_toNat {s : State} {n : Length} {j : Nat} (h : wsum s.buf.bytes j ≤ 0xFFFFFFFF) :
    (midRun s n j).acc.toNat = wsum s.buf.bytes j := by
  simp only [midRun, BitVec.toNat_ofNat]
  omega

theorem midRun_idx_toNat {s : State} {n : Length} {j : Nat} (h : j ≤ n.toNat) : (midRun s n j).idx.toNat = j := by
  have := n.isLt
  simp only [midRun, BitVec.toNat_ofNat]
  omega

@[simp] theorem midRun_buf (s : State) (n : Length) (j : Nat) : (midRun s n j).buf = s.buf := rfl
@[simp] theorem midRun_len (s : State) (n : Length) (j : Nat) : (midRun s n j).len = n := rfl

theorem readByte_absent {i : Length} {s : State} {rest : Byte → State → Flow} (h : s.buf.avail ≤ i.toNat) :
    readByte i s rest = .ended (raise .outOfBounds { s with reads := s.reads ++ [i.toNat] }) := by
  simp only [readByte, Memory.read_eq_none h]

theorem readByte_present {i : Length} {s : State} {rest : Byte → State → Flow} {b : Byte}
    (h : s.buf.read i.toNat = some b) : readByte i s rest = rest b { s with reads := s.reads ++ [i.toNat] } := by
  simp only [readByte, h]

/-- One round of the pair loop: the pair is wholly added, or the command ends at it (42_run.md rules R103, R106, R107). -/
theorem pairRound_midRun {s : State} {n : Length} {k : Nat} (hk : 2 * k + 1 < n.toNat) (hN : 2 * k ≤ s.buf.avail)
    (hsum : wsum s.buf.bytes (2 * k) ≤ 0xFFFFFFFF) :
    (lacksByte s n k → pairRound (midRun s n (2 * k)) = .ended (stopRun s n k .outOfBounds)) ∧
    (¬ lacksByte s n k → 0xFFFFFFFF < wsum s.buf.bytes (2 * k + 2) →
      pairRound (midRun s n (2 * k)) = .ended (stopRun s n k .accOverflow)) ∧
    (¬ stopsAt s n k → pairRound (midRun s n (2 * k)) = .go (midRun s n (2 * k + 2))) := by
  have hidx : (midRun s n (2 * k)).idx.toNat = 2 * k := midRun_idx_toNat (by omega)
  have hn := n.isLt
  have hidx1 : ((midRun s n (2 * k)).idx + 1).toNat = 2 * k + 1 := by
    rw [BitVec.toNat_add, hidx]
    change (2 * k + 1) % 2 ^ 24 = _
    omega
  have hmin : min (2 * k + 1) (n.toNat - 1) = 2 * k + 1 := by omega
  have hmin2 : min (2 * k + 2) n.toNat = 2 * k + 2 := by omega
  have hacc := midRun_acc_toNat (n := n) hsum
  by_cases h0 : s.buf.avail = 2 * k
  · have hstop : pairRound (midRun s n (2 * k)) = .ended (stopRun s n k .outOfBounds) := by
      rw [pairRound, readByte_absent (by rw [hidx]; exact h0.le), hidx]
      simp only [stopRun, midRun, hmin2, h0, List.append_assoc, ← List.range_succ]
      rw [show min (2 * k + 2) (2 * k + 1) = 2 * k + 1 by omega]
    have hl : lacksByte s n k := by unfold lacksByte; omega
    exact ⟨fun _ => hstop, fun h => absurd hl h, fun h => absurd (.inl hl) h⟩
  · obtain ⟨hi, hhi⟩ : ∃ b, s.buf.read (2 * k) = some b := ⟨_, Memory.read_eq_some (by omega)⟩
    by_cases h1 : s.buf.avail = 2 * k + 1
    · have hstop : pairRound (midRun s n (2 * k)) = .ended (stopRun s n k .outOfBounds) := by
        rw [pairRound, readByte_present (b := hi) (by rw [hidx]; exact hhi),
          readByte_absent (by rw [hidx1]; exact h1.le), hidx, hidx1]
        simp only [stopRun, midRun, hmin2, h1, List.append_assoc, min_self]
        rw [List.range_succ, List.range_succ, List.append_assoc]
      have hl : lacksByte s n k := by unfold lacksByte; omega
      exact ⟨fun _ => hstop, fun h => absurd hl h, fun h => absurd (.inl hl) h⟩
    · obtain ⟨lo, hlo⟩ : ∃ b, s.buf.read (2 * k + 1) = some b := ⟨_, Memory.read_eq_some (by omega)⟩
      have hl : ¬ lacksByte s n k := by unfold lacksByte; omega
      have hw : wsum s.buf.bytes (2 * k + 2) = wsum s.buf.bytes (2 * k) + be16 hi lo :=
        wsum_pair (by rw [Memory.bytes_getElem?, hhi]) (by rw [Memory.bytes_getElem?, hlo])
      have hreads : (s.reads ++ List.range (2 * k)) ++ [2 * k] ++ [2 * k + 1] = s.reads ++ List.range (2 * k + 2) := by
        rw [List.range_succ, List.range_succ]
        simp
      have hround : pairRound (midRun s n (2 * k)) =
          addAndAdvance (pairOperand hi lo) 2
            { midRun s n (2 * k) with reads := s.reads ++ List.range (2 * k + 2) } := by
        rw [pairRound, readByte_present (b := hi) (by rw [hidx]; exact hhi),
          readByte_present (b := lo) (by rw [hidx1]; exact hlo), hidx, hidx1, ← hreads]
        rfl
      have hmin3 : min (2 * k + 2) (s.buf.avail + 1) = 2 * k + 2 := by omega
      refine ⟨fun h => absurd h hl, fun _ hover => ?_, fun hgo => ?_⟩
      · rw [hround, addAndAdvance, checkedAdd_of_exceeds (by rw [hacc, pairOperand_toNat]; omega)]
        simp only [stopRun, hmin2, hmin3]
      · have hfit : wsum s.buf.bytes (2 * k + 2) ≤ 0xFFFFFFFF := by
          by_contra hc
          exact hgo (.inr (by rw [hmin2]; omega))
        rw [hround, addAndAdvance, checkedAdd_of_fits (by rw [hacc, pairOperand_toNat]; omega)]
        simp only [hacc, pairOperand_toNat, ← hw]
        simp only [midRun, BitVec.ofNat_add, BitVec.ofNat_eq_ofNat]

/-- The test of the pair loop, as numbers. -/
theorem loopTest_iff {s : State} {n : Length} {k : Nat} (hn : n ≠ 0) (hk : 2 * k ≤ n.toNat) :
    (midRun s n (2 * k)).idx < (midRun s n (2 * k)).len - 1 ↔ 2 * k + 1 < n.toNat := by
  have hlt := n.isLt
  have hpos : n.toNat ≠ 0 := fun h => hn (BitVec.eq_of_toNat_eq (by simpa using h))
  rw [BitVec.lt_def, midRun_idx_toNat hk, midRun_len, BitVec.toNat_sub]
  change 2 * k < (2 ^ 24 - 1 + n.toNat) % 2 ^ 24 ↔ _
  omega

/-- The pair loop from pair `k` on: it adds every pair, or ends at the first word that stops it. -/
theorem pairLoop_midRun {s : State} {n : Length} (hn : n ≠ 0) (rounds k : Nat) (hr : n.toNat ≤ 2 * (k + rounds))
    (hk : 2 * k ≤ n.toNat) (hN : 2 * k ≤ s.buf.avail) (hsum : wsum s.buf.bytes (2 * k) ≤ 0xFFFFFFFF) :
    ((∀ j, k ≤ j → 2 * j + 1 < n.toNat → ¬ stopsAt s n j) →
      pairLoop rounds (midRun s n (2 * k)) = .go (midRun s n (2 * (n.toNat / 2)))) ∧
    (∀ j, k ≤ j → 2 * j + 1 < n.toNat → (∀ i, k ≤ i → i < j → ¬ stopsAt s n i) →
      (lacksByte s n j → pairLoop rounds (midRun s n (2 * k)) = .ended (stopRun s n j .outOfBounds)) ∧
      (¬ lacksByte s n j → stopsAt s n j →
        pairLoop rounds (midRun s n (2 * k)) = .ended (stopRun s n j .accOverflow))) := by
  induction rounds generalizing k with
  | zero =>
    have hend : 2 * k = n.toNat := by omega
    refine ⟨fun _ => ?_, fun j hkj hj => by omega⟩
    rw [pairLoop, show n.toNat / 2 = k by omega]
  | succ rounds ih =>
    rw [pairLoop]
    by_cases htest : 2 * k + 1 < n.toNat
    · rw [if_pos ((loopTest_iff hn hk).mpr htest)]
      obtain ⟨hlack, hover, hgo⟩ := pairRound_midRun htest hN hsum
      have hmin2 : min (2 * k + 2) n.toNat = 2 * k + 2 := by omega
      have hnext : ¬ stopsAt s n k → 2 * (k + 1) ≤ s.buf.avail ∧ wsum s.buf.bytes (2 * (k + 1)) ≤ 0xFFFFFFFF := by
        intro hns
        simp only [stopsAt, lacksByte, hmin2, not_or] at hns
        rw [show 2 * (k + 1) = 2 * k + 2 from rfl]
        omega
      refine ⟨fun hall => ?_, fun j hkj hj hbefore => ?_⟩
      · have hns := hall k (le_refl k) htest
        obtain ⟨hN', hsum'⟩ := hnext hns
        rw [hgo hns, Flow.andThen, show 2 * k + 2 = 2 * (k + 1) by omega]
        exact (ih (k + 1) (by omega) (by omega) hN' hsum').1 fun j hj => hall j (by omega)
      · rcases Nat.eq_or_lt_of_le hkj with rfl | hlt
        · refine ⟨fun hl => by rw [hlack hl, Flow.andThen], fun hnl hst => ?_⟩
          rcases hst with hl | hex
          · exact absurd hl hnl
          · rw [hover hnl (by rwa [hmin2] at hex), Flow.andThen]
        · have hns := hbefore k (le_refl k) hlt
          obtain ⟨hN', hsum'⟩ := hnext hns
          rw [hgo hns, Flow.andThen, show 2 * k + 2 = 2 * (k + 1) by omega]
          exact (ih (k + 1) (by omega) (by omega) hN' hsum').2 j (by omega) hj fun i hi => hbefore i (by omega)
    · rw [if_neg (by rw [loopTest_iff hn hk]; exact htest)]
      exact ⟨fun _ => by rw [show n.toNat / 2 = k by omega], fun j hkj hj => by omega⟩

/-- The trailing byte of an odd length: added, or the command ends at it (42_run.md rules R104, R106, R107). -/
theorem trailingByte_odd {s : State} {n : Length} {k : Nat} (hodd : n.toNat = 2 * k + 1) (hN : 2 * k ≤ s.buf.avail)
    (hsum : wsum s.buf.bytes (2 * k) ≤ 0xFFFFFFFF) :
    (lacksByte s n k → trailingByte (midRun s n (2 * k)) = .ended (stopRun s n k .outOfBounds)) ∧
    (¬ lacksByte s n k → stopsAt s n k → trailingByte (midRun s n (2 * k)) = .ended (stopRun s n k .accOverflow)) ∧
    (¬ stopsAt s n k → trailingByte (midRun s n (2 * k)) = .go (midRun s n n.toNat)) := by
  have hbit : (midRun s n (2 * k)).len.getLsbD 0 = true := by
    rw [midRun_len, BitVec.getLsbD, Nat.testBit_zero, hodd]
    simp
  have hidx : (midRun s n (2 * k)).idx.toNat = 2 * k := midRun_idx_toNat (by omega)
  have hmin : min (2 * k + 1) (n.toNat - 1) = 2 * k := by omega
  have hmin2 : min (2 * k + 2) n.toNat = 2 * k + 1 := by omega
  have hacc := midRun_acc_toNat (n := n) hsum
  rw [trailingByte, if_pos hbit]
  by_cases h0 : s.buf.avail = 2 * k
  · have hl : lacksByte s n k := by unfold lacksByte; omega
    refine ⟨fun _ => ?_, fun h => absurd hl h, fun h => absurd (.inl hl) h⟩
    rw [readByte_absent (by rw [hidx]; exact h0.le), hidx]
    simp only [stopRun, midRun, hmin2, h0, List.append_assoc, ← List.range_succ, min_self]
  · obtain ⟨b, hb⟩ : ∃ b, s.buf.read (2 * k) = some b := ⟨_, Memory.read_eq_some (by omega)⟩
    have hl : ¬ lacksByte s n k := by unfold lacksByte; omega
    have hw : wsum s.buf.bytes (2 * k + 1) = wsum s.buf.bytes (2 * k) + b.toNat * 256 :=
      wsum_trailing (by rw [Memory.bytes_getElem?, hb])
    have hround : readByte (midRun s n (2 * k)).idx (midRun s n (2 * k))
          (fun b s => addAndAdvance (trailingOperand b) 1 s) =
        addAndAdvance (trailingOperand b) 1
          { midRun s n (2 * k) with reads := s.reads ++ List.range (2 * k + 1) } := by
      rw [readByte_present (b := b) (by rw [hidx]; exact hb), hidx, List.range_succ, ← List.append_assoc]
      rfl
    have hmin3 : min (2 * k + 1) (s.buf.avail + 1) = 2 * k + 1 := by omega
    refine ⟨fun h => absurd h hl, fun _ hst => ?_, fun hgo => ?_⟩
    · have hex : 0xFFFFFFFF < wsum s.buf.bytes (2 * k + 1) := by
        rcases hst with h | h
        · exact absurd h hl
        · rwa [hmin2] at h
      rw [hround, addAndAdvance, checkedAdd_of_exceeds (by rw [hacc, trailingOperand_toNat]; omega)]
      simp only [stopRun, hmin2, hmin3]
    · have hfit : wsum s.buf.bytes (2 * k + 1) ≤ 0xFFFFFFFF := by
        by_contra hc
        exact hgo (.inr (by rw [hmin2]; omega))
      rw [hround, addAndAdvance, checkedAdd_of_fits (by rw [hacc, trailingOperand_toNat]; omega)]
      simp only [hacc, trailingOperand_toNat, ← hw, hodd]
      simp only [midRun, BitVec.ofNat_add, BitVec.ofNat_eq_ofNat]

/-- An even length has no trailing byte (42_run.md rule R104). -/
theorem trailingByte_even {s : State} (h : s.len.toNat % 2 = 0) : trailingByte s = .go s := by
  have hbit : s.len.getLsbD 0 = false := by
    rw [BitVec.getLsbD, Nat.testBit_zero, h]
    rfl
  rw [trailingByte, hbit]
  rfl

end Sys2Proof.Machine
end

