-- ==== Sys2Proof/Laws/Exec.lean ====
section
/-! SUPPORT. What the shared operations, the commands and one step can do, each said once. -/

namespace Sys2Proof.Machine

theorem latched_iff (s : State) : latched s = true ↔ s.err ≠ 0 := by simp [latched]

/-- A latched fault refuses (60_exceptions.md rule R133). -/
theorem unlessLatched_of_latched {s : State} (h : s.err ≠ 0) (effect : State → State) :
    unlessLatched effect s = respond s.err 0 s := if_pos ((latched_iff s).mpr h)

theorem unlessLatched_of_clear {s : State} (h : s.err = 0) (effect : State → State) :
    unlessLatched effect s = effect s := if_neg (by simp [latched, h])

theorem addAndRespond_of_fits {w : Word} {s : State} (h : s.acc.toNat + w.toNat ≤ 0xFFFFFFFF) :
    addAndRespond w s = respond codeOk 0 { s with acc := BitVec.ofNat 32 (s.acc.toNat + w.toNat) } := by
  simp only [addAndRespond, checkedAdd_of_fits h]

theorem addAndRespond_of_exceeds {w : Word} {s : State} (h : 0xFFFFFFFF < s.acc.toNat + w.toNat) :
    addAndRespond w s = raise .accOverflow s := by
  simp only [addAndRespond, checkedAdd_of_exceeds h]

/-- Every command answers a next state: the spec's faults are next states (60_exceptions.md rule R131). -/
theorem exec_answers (i : Instr) (s : State) : ∃ t, exec i s = .next t := by
  cases i <;> exact ⟨_, rfl⟩

/-- Every command word does (30_encoding.md rule R66). -/
theorem acceptCommand_answers (w : Word) (s : State) : ∃ t, acceptCommand w s = .next t := by
  rw [acceptCommand]
  split
  · exact exec_answers _ s
  · exact ⟨_, rfl⟩

theorem acceptCommand_of_legal {w : Word} {i : Instr} (h : decode w = .legal i) (s : State) :
    acceptCommand w s = exec i s := by simp only [acceptCommand, h]

theorem acceptCommand_of_illegal {w : Word} {why : IllegalReason} (h : decode w = .illegal why) (s : State) :
    acceptCommand w s = .next (respond codeIllegal 0 s) := by simp only [acceptCommand, h, illegalCommand]

theorem step_of_idle {s : State} (h : s.inputs = []) : step s = .next s := by simp only [step, stepInput, h]

theorem step_of_input {s : State} {i : Input} {rest : List Input} (h : s.inputs = i :: rest) :
    step s = acceptInput i { s with inputs := rest } := by simp only [step, stepInput, h]

/-- A run of the machine whose first step answers a next state goes on from it. -/
theorem run_of_next {s t : State} (k : Nat) (h : step s = .next t) :
    Host.Core.run Sys2Proof.core (k + 1) s = Host.Core.run Sys2Proof.core k t := by
  have hc : Sys2Proof.core.step s = .next t := h
  simp only [Host.Core.run, hc]

theorem issuedReads_of_next {w : Word} {s t : State} {l : List Nat} (h : acceptCommand w s = .next t)
    (hr : t.reads = s.reads ++ l) : issuedReads w s = l := by
  simp only [issuedReads, h, hr, List.drop_left]

/-- All a step can do: hold, act on a command word, reset, or let the environment act on BUF. -/
theorem step_next_cases {s t : State} (h : step s = .next t) :
    (s.inputs = [] ∧ t = s) ∨
    ∃ (i : Input) (rest : List Input), s.inputs = i :: rest ∧ acceptInput i { s with inputs := rest } = .next t := by
  cases hi : s.inputs with
  | nil =>
    rw [step_of_idle hi] at h
    exact .inl ⟨rfl, (Host.Outcome.next.inj h).symm⟩
  | cons i rest => exact .inr ⟨i, rest, rfl, by rwa [step_of_input hi] at h⟩

/-- All an accepted rebinding command can do. -/
theorem acceptRebound_cases (w : Word) (bound : List Memory) (s : State) :
    (keepsPremise w s.buf bound = true ∧ ∃ t, acceptCommand w s = .next t ∧
      acceptRebound w bound s = .next { t with buf := bound.getLastD s.buf }) ∨
    (keepsPremise w s.buf bound = false ∧ acceptRebound w bound s = .refused .bufferChangedDuringRun) := by
  cases hk : keepsPremise w s.buf bound with
  | true =>
    obtain ⟨t, ht⟩ := acceptCommand_answers w s
    exact .inl ⟨rfl, t, ht, by simp only [acceptRebound, hk, ht, if_true]⟩
  | false => exact .inr ⟨rfl, by simp [acceptRebound, hk]⟩

end Sys2Proof.Machine
end

