-- ==== Sys2Proof/Laws/PerInstr.lean ====
section
/-! SUPPORT. Per command: its word's two fields are its opcode and its operand, and the operand stays inside its format
(30_encoding.md rules R60, R61, R69). -/

namespace Sys2Proof.Laws.EncodedFields

/-- The fields of a command's word. -/
def Statement (i : Instr) : Prop :=
  opField (encode i) = i.opcode.code ∧ argField (encode i) = i.operand ∧ i.operand ≤ i.opcode.format.operandMask

/-- The two fields of `(OP << 24) | operand`. -/
theorem fields_of_word (code : Byte) (operand : Length) :
    opField ((code.setWidth 32 <<< 24) ||| operand.setWidth 32) = code ∧
      argField ((code.setWidth 32 <<< 24) ||| operand.setWidth 32) = operand := by
  have hop := operand.isLt
  have hcode := code.isLt
  have hword : ((code.setWidth 32 <<< 24) ||| operand.setWidth 32 : Word).toNat = code.toNat * 2 ^ 24 + operand.toNat := by
    have hc : code.toNat % 2 ^ 32 = code.toNat := by omega
    have hs : code.toNat <<< 24 % 2 ^ 32 = code.toNat <<< 24 := by
      rw [Nat.shiftLeft_eq]
      omega
    simp only [BitVec.toNat_or, BitVec.toNat_shiftLeft, BitVec.toNat_setWidth, hc, hs]
    rw [Nat.mod_eq_of_lt (by omega : operand.toNat < 2 ^ 32), ← Nat.shiftLeft_add_eq_or_of_lt hop, Nat.shiftLeft_eq]
  constructor
  · apply BitVec.eq_of_toNat_eq
    rw [opField_toNat, hword]
    omega
  · apply BitVec.eq_of_toNat_eq
    rw [argField_toNat, hword]
    omega

theorem clr : Statement .clr := by
  refine ⟨(fields_of_word _ _).1, (fields_of_word _ _).2, ?_⟩
  decide

theorem addw (imm16 : Half) : Statement (.addw imm16) := by
  refine ⟨(fields_of_word _ _).1, (fields_of_word _ _).2, ?_⟩
  have := imm16.isLt
  change (imm16.setWidth 24).toNat ≤ 0xFFFF
  rw [BitVec.toNat_setWidth]
  omega

theorem addt (imm8 : Byte) : Statement (.addt imm8) := by
  refine ⟨(fields_of_word _ _).1, (fields_of_word _ _).2, ?_⟩
  have := imm8.isLt
  change (imm8.setWidth 24).toNat ≤ 0xFF
  rw [BitVec.toNat_setWidth]
  omega

theorem fold : Statement .fold := by
  refine ⟨(fields_of_word _ _).1, (fields_of_word _ _).2, ?_⟩
  decide

theorem fin : Statement .fin := by
  refine ⟨(fields_of_word _ _).1, (fields_of_word _ _).2, ?_⟩
  decide

theorem run (len24 : Length) : Statement (.run len24) := by
  refine ⟨(fields_of_word _ _).1, (fields_of_word _ _).2, ?_⟩
  have := len24.isLt
  change len24.toNat ≤ 0xFFFFFF
  omega

theorem rdr (r2 : RegNum) : Statement (.rdr r2) := by
  refine ⟨(fields_of_word _ _).1, (fields_of_word _ _).2, ?_⟩
  cases r2 <;> decide

end Sys2Proof.Laws.EncodedFields
end

