-- ==== Sys2Proof/Tests/Slice0.lean ====
section
/-! SUPPORT. Tests of the model (expected values from spec/95_test_vectors.md, named in each comment) and, for every statement
with hypotheses, a witness that meets them. -/

namespace Sys2Proof.Tests

open Sys2Proof.Machine Sys2Proof.Algorithm

/-! ### Helpers -/

/-- A state with these registers and nothing at the ports. -/
def regsState (acc : Word) (err : Code) (len idx : Length) : State :=
  { State.reset with acc := acc, err := err, len := len, idx := idx }

/-- The same with a buffer. -/
def bufState (bytes : List Byte) : State := { State.reset with buf := Memory.ofBytes bytes }

/-- The registers and the last response after one step on a command word. -/
def afterWord (w : Word) (s : State) : Option (Regs × Option Response) :=
  match step (offerCommand w s) with
  | .next t => some (t.regs, t.sent.getLast?)
  | .fault _ => none
  | .refused _ => none

/-- The indices read by one step on a command word. -/
def readsOfWord (w : Word) (s : State) : Option (List Nat) :=
  match step (offerCommand w s) with
  | .next t => some t.reads
  | .fault _ => none
  | .refused _ => none

/-- Buffer A of 95_test_vectors.md section 3.3. -/
def bufferA : List Byte := [0x00, 0x01, 0xF2, 0x03, 0xF4, 0xF5, 0xF6, 0xF7]

/-- Buffer B of 95_test_vectors.md section 3.3. -/
def bufferB : List Byte := [0x01, 0x02, 0x03, 0x04, 0x05, 0x06, 0x07]

/-! ### Source lines that are refused (30_encoding.md rules R69, R70, R71) -/

theorem test_addw_out_of_range : Line.wellFormed (.addw 0x10000) = false := by decide
theorem test_addt_out_of_range : Line.wellFormed (.addt 0x100) = false := by decide
theorem test_run_out_of_range : Line.wellFormed (.run 0x1000000) = false := by decide
theorem test_rdr_out_of_range : Line.wellFormed (.rdr 4) = false := by decide
theorem test_word_out_of_range : Line.wellFormed (.word 0x100000000) = false := by decide
theorem test_addp_high_out_of_range : Line.wellFormed (.addp 0x100 0) = false := by decide
theorem test_addp_low_out_of_range : Line.wellFormed (.addp 0 0x100) = false := by decide
theorem test_compute_of_nothing : Line.wellFormed (.compute []) = false := by decide
theorem test_compute_out_of_range : Line.wellFormed (.compute [1, 0x100]) = false := by decide

/-! ### Decoding: words written out bit by bit from the patterns of 30_encoding.md rule R62 -/

theorem test_decode_clr : decode 0b00000001000000000000000000000000 = .legal .clr := by decide
theorem test_decode_addw : decode 0b00000010000000000001001000110100 = .legal (.addw 0x1234) := by decide
theorem test_decode_addt : decode 0b00000011000000000000000010101011 = .legal (.addt 0xAB) := by decide
theorem test_decode_fold : decode 0b00000100000000000000000000000000 = .legal .fold := by decide
theorem test_decode_fin : decode 0b00000101000000000000000000000000 = .legal .fin := by decide
theorem test_decode_run : decode 0b00000110000000100000000000000010 = .legal (.run 131074) := by decide
theorem test_decode_rdr : decode 0b00000111000000000000000000000010 = .legal (.rdr .len) := by decide

/-- 95_test_vectors.md section 3.5, the illegal words. -/
theorem test_decode_illegal :
    [0x00000000, 0xFFFFFFFF, 0x08000000].map decode = List.replicate 3 (.illegal .reservedOpcode) ∧
    [0x01000001, 0x02010000, 0x03000100, 0x04800000, 0x05000001, 0x07000004].map decode =
      List.replicate 6 (.illegal .mustBeZeroSet) := by decide

theorem test_decodeTableWord : decodeTableWord 32 0x0200FFFF = some (.addw 0xFFFF) := by decide

/-! ### Commands -/

/-- V40. -/
theorem test_clr : afterWord 0x01000000 (regsState 0x0002DDF0 2 9 8) = some (⟨0, 0, 0, 0⟩, some ⟨0, 0⟩) := by decide

/-- V43. -/
theorem test_addw : afterWord 0x0200FFFF (regsState 0x0000FFFF 0 0 0) = some (⟨0x0001FFFE, 0, 0, 0⟩, some ⟨0, 0⟩) := by
  decide

/-- V49. -/
theorem test_addw_overflow :
    afterWord 0x02000001 (regsState 0xFFFFFFFF 0 0 0) = some (⟨0xFFFFFFFF, 3, 0, 0⟩, some ⟨3, 0⟩) := by decide

/-- V44. -/
theorem test_addt : afterWord 0x03000056 (regsState 0x00001234 0 0 0) = some (⟨0x00006834, 0, 0, 0⟩, some ⟨0, 0⟩) := by
  decide

/-- V51. -/
theorem test_addt_overflow :
    afterWord 0x030000FF (regsState 0xFFFF0100 0 0 0) = some (⟨0xFFFF0100, 3, 0, 0⟩, some ⟨3, 0⟩) := by decide

/-- 95_test_vectors.md section 3.1, two rounds. -/
theorem test_fold : afterWord 0x04000000 (regsState 0xFFFEFFFF 0 5 4) = some (⟨0x0000FFFE, 0, 5, 4⟩, some ⟨0, 0xFFFE⟩) := by
  decide

/-- 95_test_vectors.md section 3.1, refusal. -/
theorem test_fold_refused :
    afterWord 0x04000000 (regsState 0x0002DDF0 2 9 8) = some (⟨0x0002DDF0, 2, 9, 8⟩, some ⟨2, 0⟩) := by decide

/-- 95_test_vectors.md section 3.1. -/
theorem test_fin : afterWord 0x05000000 (regsState 0x12345678 0 0 0) = some (⟨0x000068AC, 0, 0, 0⟩, some ⟨0, 0x9753⟩) := by
  decide

/-- V54. -/
theorem test_fin_refused :
    afterWord 0x05000000 (regsState 0xFFFFFFFF 3 0 0) = some (⟨0xFFFFFFFF, 3, 0, 0⟩, some ⟨3, 0⟩) := by decide

/-- V60. -/
theorem test_run : afterWord 0x06000008 (bufState bufferA) = some (⟨0x0000DDF2, 0, 8, 8⟩, some ⟨0, 0x220D⟩) := by decide

/-- V68: the second byte of a pair is absent; the reads made are 0 to 6, then 7. -/
theorem test_run_short :
    afterWord 0x06000008 (bufState bufferB) = some (⟨0x0000090C, 2, 8, 6⟩, some ⟨2, 0⟩) ∧
    readsOfWord 0x06000008 (bufState bufferB) = some [0, 1, 2, 3, 4, 5, 6, 7] := by decide

/-- 95_test_vectors.md section 3.4. -/
theorem test_rdr : afterWord 0x07000000 (regsState 0x0002DDF0 2 9 8) = some (⟨0x0002DDF0, 2, 9, 8⟩, some ⟨0, 0x0002DDF0⟩) ∧
    afterWord 0x07000001 (regsState 0x0002DDF0 2 9 8) = some (⟨0x0002DDF0, 2, 9, 8⟩, some ⟨0, 2⟩) := by decide

/-- 95_test_vectors.md section 3.4. -/
theorem test_rdr_sequencer :
    afterWord 0x07000002 (regsState 0x0002DDF0 2 9 8) = some (⟨0x0002DDF0, 2, 9, 8⟩, some ⟨0, 9⟩) ∧
    afterWord 0x07000003 (regsState 0x0002DDF0 2 9 8) = some (⟨0x0002DDF0, 2, 9, 8⟩, some ⟨0, 8⟩) := by decide

/-- 95_test_vectors.md section 3.5: an illegal word is answered `(4, 0)` although a fault is latched. -/
theorem test_illegal_word :
    afterWord 0x00000000 (regsState 0xFFFFFFFF 3 0 0) = some (⟨0xFFFFFFFF, 3, 0, 0⟩, some ⟨4, 0⟩) := by decide

/-! ### The assembler (30_encoding.md rules R69 to R71, R74) -/

/-- `ADDP 0x12, 0x34` is word `0x02001234` (30_encoding.md rule R70), with a comment. -/
theorem test_assemble_addp :
    assembleLine ['A', 'D', 'D', 'P', ' ', '0', 'x', '1', '2', ',', ' ', '0', 'x', '3', '4', ' ', ';', 'c'] =
      some [0x02001234] := by decide

/-- The encodings of S3's streaming form: `CLR; ADDT 0xAB; FIN`. -/
theorem test_assemble_compute :
    assembleLine ['C', 'O', 'M', 'P', 'U', 'T', 'E', ' ', '0', 'x', 'A', 'B'] =
      some [0x01000000, 0x030000AB, 0x05000000] := by decide

theorem test_disassemble_rdr : disassemble 0x07000003 = ['R', 'D', 'R', ' ', 'I', 'D', 'X'] := by decide

theorem test_disassemble_illegal :
    disassemble 0x02010000 = ['.', 'w', 'o', 'r', 'd', ' ', '0', 'x', '0', '2', '0', '1', '0', '0', '0', '0'] := by decide

/-! ### Witnesses: states and operands that meet the hypotheses of the statements -/

theorem witness_ClearGivesTheResetState : ∃ w : Word, opField w = 0x01 ∧ argField w ≠ 0 := ⟨0x01000001, by decide⟩

theorem witness_ResetInputClearsWithoutResponse : ∃ (s : State) (rest : List Input), s.inputs = .reset :: rest :=
  ⟨{ regsState 5 2 9 8 with inputs := [.reset] }, [], rfl⟩

theorem witness_ResetAbandonsTheCommand :
    ∃ (s : State) (w : Word) (made : Nat) (rest : List Input), s.inputs = .resetDuring w made :: rest :=
  ⟨{ bufState bufferA with inputs := [.resetDuring 0x06000008 3] }, 0x06000008, 3, [], rfl⟩

/-- The three clauses of `AddWordIsExactOrFaults`, at the boundary of the sum (V53, V47, V49). -/
theorem witness_AddWordIsExactOrFaults :
    (∃ s : State, s.err ≠ 0) ∧
    (∃ (s : State) (v : Half), s.err = 0 ∧ s.acc.toNat + v.toNat ≤ 0xFFFFFFFF) ∧
    (∃ (s : State) (v : Half), s.err = 0 ∧ 0xFFFFFFFF < s.acc.toNat + v.toNat) :=
  ⟨⟨regsState 0xFFFFFFFF 3 0 0, by decide⟩, ⟨regsState 0xFFFF0000 0 0 0, 0xFFFF, by decide⟩,
    ⟨regsState 0xFFFFFFFF 0 0 0, 1, by decide⟩⟩

/-- The three clauses of `AddTrailingByteIsExactOrFaults`, at the boundary of the sum (V50, V51). -/
theorem witness_AddTrailingByteIsExactOrFaults :
    (∃ s : State, s.err ≠ 0) ∧
    (∃ (s : State) (b : Byte), s.err = 0 ∧ s.acc.toNat + b.toNat * 256 ≤ 0xFFFFFFFF) ∧
    (∃ (s : State) (b : Byte), s.err = 0 ∧ 0xFFFFFFFF < s.acc.toNat + b.toNat * 256) :=
  ⟨⟨regsState 0 1 0 0, by decide⟩, ⟨regsState 0xFFFF00FF 0 0 0, 0xFF, by decide⟩,
    ⟨regsState 0xFFFF0100 0 0 0, 0xFF, by decide⟩⟩

theorem witness_AdditionOrderIsFree :
    ∃ (l l' : List Instr) (adds : List Nat) (s : State),
      l.map addend = adds.map some ∧ l'.Perm l ∧ s.err = 0 ∧ s.acc.toNat + adds.sum ≤ 0xFFFFFFFF :=
  ⟨[.addw 1, .addt 2], [.addt 2, .addw 1], [1, 512], State.reset, by decide, by decide, rfl, by decide⟩

theorem witness_AdditionsWithinTheMarginSucceed :
    (∃ (l : List Instr) (adds : List Nat) (s : State),
      l.map addend = adds.map some ∧ s.err = 0 ∧ s.acc = 0 ∧ l.length ≤ 65537) ∧
    (∃ (l : List Instr) (adds : List Nat) (s : State),
      l.map addend = adds.map some ∧ s.err = 0 ∧ s.acc.toNat ≤ 0xFFFF ∧ l.length ≤ 65536) :=
  ⟨⟨[.addw 0xFFFF], [0xFFFF], State.reset, by decide⟩, ⟨[.addt 0xFF], [0xFF00], regsState 0xFFFF 0 0 0, by decide⟩⟩

theorem witness_FoldRunsTheCarryLoop :
    (∃ s : State, s.err ≠ 0) ∧ (∃ s : State, s.err = 0 ∧ s.acc = 0xFFFFFFFF) :=
  ⟨⟨regsState 0 3 0 0, by decide⟩, ⟨regsState 0xFFFFFFFF 0 0 0, by decide⟩⟩

theorem witness_FinishReturnsTheComplement :
    (∃ s : State, s.err ≠ 0) ∧ (∃ s : State, s.err = 0 ∧ s.acc = 0x0001FFFE) :=
  ⟨⟨regsState 0 2 9 8, by decide⟩, ⟨regsState 0x0001FFFE 0 0 0, by decide⟩⟩

theorem witness_FoldLaws : ∃ a : Nat, a < 2 ^ 32 ∧ 1 ≤ a := ⟨0xFFFFFFFF, by decide⟩

theorem witness_AccumulationContinuesAfterFold :
    ∃ (l : List Instr) (adds : List Nat) (s : State), l.map addend = adds.map some ∧ s.err = 0 ∧
      s.acc.toNat + adds.sum ≤ 0xFFFFFFFF ∧ fold s.acc.toNat + adds.sum ≤ 0xFFFFFFFF :=
  ⟨[.addw 0xB861], [0xB861], regsState 0x0002479C 0 0 0, by decide⟩

theorem witness_WordsAreBigEndianPairs :
    ∃ (data : List Byte) (len k : Nat), 1 ≤ len ∧ len ≤ data.length ∧ 2 * k < len - 1 ∧ len % 2 = 1 :=
  ⟨bufferB, 7, 2, by decide⟩

theorem witness_PaddingKeepsTheChecksum : ∃ (data : List Byte) (len : Nat), data.length = len ∧ len % 2 = 1 :=
  ⟨bufferB, 7, by decide⟩

theorem witness_ChecksumRange :
    ∃ (data : List Byte) (len k : Nat), 1 ≤ len ∧ len ≤ data.length ∧ wsum data len < 2 ^ 32 ∧ 2 * k + 1 < len ∧
      data[2 * k]? = some 0 ∧ data[2 * k + 1]? = some 0 ∧ wsum data len + csum data len < 2 ^ 32 :=
  ⟨[0x12, 0x34, 0, 0], 4, 1, by decide⟩

theorem witness_RunReturnsTheChecksum :
    ∃ (n : Length) (s : State), n ≠ 0 ∧ n.toNat ≤ s.buf.avail ∧ wsum s.buf.bytes n.toNat ≤ 0xFFFFFFFF :=
  ⟨8, bufState bufferA, by decide⟩

/-- Both clauses of `RunShortBufferFaults` (V65). -/
theorem witness_RunShortBufferFaults :
    (∃ (n : Length) (s : State), s.buf.avail < n.toNat ∧ wsum s.buf.bytes (2 * (s.buf.avail / 2)) ≤ 0xFFFFFFFF) ∧
    (∃ (i : Instr) (s t : State), exec i s = .next t ∧ s.err ≠ 2 ∧ t.err = 2) :=
  ⟨⟨9, bufState bufferA, by decide⟩, ⟨.run 1, State.reset, _, rfl, by decide, by decide⟩⟩

/-- A buffer of `0xFF` bytes, so large that its sum does not fit (40_accumulate.md rule R85 (d): 131,075 bytes can). -/
def largeState (size : Nat) : State := bufState (List.replicate size (0xFF : Byte))

theorem largeState_avail (size : Nat) : (largeState size).buf.avail = size := by simp [largeState, bufState]

theorem largeState_bytes (size : Nat) : (largeState size).buf.bytes = List.replicate size 0xFF := by
  simp only [largeState, bufState, Memory.ofBytes_bytes]

/-- Both clauses of `RunOverflowFaults`, at the smallest buffer that can overflow. -/
theorem witness_RunOverflowFaults :
    (∃ (n : Length) (s : State) (k : Nat),
      2 * k < n.toNat ∧ min (2 * k + 2) n.toNat ≤ s.buf.avail ∧ wsum s.buf.bytes (2 * k) ≤ 0xFFFFFFFF ∧
      0xFFFFFFFF < wsum s.buf.bytes (min (2 * k + 2) n.toNat)) ∧
    (∃ (n : Length) (s : State) (k : Nat),
      2 * k < n.toNat ∧ 2 * k ≤ s.buf.avail ∧ s.buf.avail < min (2 * k + 2) n.toNat ∧
      wsum s.buf.bytes (2 * k) ≤ 0xFFFFFFFF) := by
  have hn : (131075 : Length).toNat = 131075 := by decide
  refine ⟨⟨131075, largeState 131075, 65537, ?_⟩, ⟨131075, largeState 131074, 65537, ?_⟩⟩
  · have e : min (2 * 65537 + 2) 131075 = 2 * 65537 + 1 := by omega
    rw [hn, largeState_avail, largeState_bytes, e, wsum_replicate (by omega), wsum_replicate_trailing (by omega)]
    omega
  · rw [hn, largeState_avail, largeState_bytes, wsum_replicate (by omega)]
    omega

/-- The clauses of `RunHasTheClosedForm` with a failing word: one that lacks a byte, and one that overflows. -/
theorem witness_RunHasTheClosedForm :
    (∃ (n : Length) (s : State) (k : Nat), k < (n.toNat + 1) / 2 ∧ s.buf.avail ≤ min (2 * k + 1) (n.toNat - 1) ∧
      ∀ j < k, ¬(s.buf.avail ≤ min (2 * j + 1) (n.toNat - 1) ∨
        0xFFFFFFFF < wsum s.buf.bytes (min (2 * (j + 1)) n.toNat))) ∧
    (∃ (n : Length) (s : State) (k : Nat), k < (n.toNat + 1) / 2 ∧ ¬ s.buf.avail ≤ min (2 * k + 1) (n.toNat - 1) ∧
      0xFFFFFFFF < wsum s.buf.bytes (min (2 * (k + 1)) n.toNat) ∧
      ∀ j < k, ¬(s.buf.avail ≤ min (2 * j + 1) (n.toNat - 1) ∨
        0xFFFFFFFF < wsum s.buf.bytes (min (2 * (j + 1)) n.toNat))) ∧
    (∃ (n : Length) (s : State), n ≠ 0 ∧ ∀ k, k < (n.toNat + 1) / 2 →
      ¬(s.buf.avail ≤ min (2 * k + 1) (n.toNat - 1) ∨ 0xFFFFFFFF < wsum s.buf.bytes (min (2 * (k + 1)) n.toNat))) := by
  have hn : (131075 : Length).toNat = 131075 := by decide
  refine ⟨⟨9, bufState bufferA, 4, by decide⟩, ⟨131075, largeState 131075, 65537, ?_⟩, ⟨8, bufState bufferA, by decide⟩⟩
  have e : min (2 * (65537 + 1)) 131075 = 2 * 65537 + 1 := by omega
  rw [hn, largeState_avail, largeState_bytes, e, wsum_replicate_trailing (by omega)]
  refine ⟨by omega, by omega, by omega, fun j hj => ?_⟩
  have ej : min (2 * (j + 1)) 131075 = 2 * (j + 1) := by omega
  rw [ej, wsum_replicate (by omega)]
  omega

theorem witness_RunDependsOnItsInputsOnly :
    ∃ (n : Length) (s s' : State), s ≠ s' ∧ s.buf.avail = s'.buf.avail ∧
      ∀ i < min n.toNat s.buf.avail, s.buf.read i = s'.buf.read i :=
  ⟨2, bufState [0, 1, 2], { bufState [0, 1, 3] with err := 3 }, by decide⟩

theorem witness_ReadsAscendFromZero :
    (∃ i : Instr, ∀ n, i ≠ .run n) ∧ (∃ (i : Instr) (n : Length), i = .run n ∧ n ≠ 0) :=
  ⟨⟨.fold, (by intro _ h; cases h)⟩, ⟨.run 8, 8, rfl, by decide⟩⟩

/-- Both clauses of `PairLoopKeepsThePartialSum`: inside the loop, and past the trailing byte of an odd length. -/
theorem witness_PairLoopKeepsThePartialSum :
    (∃ (rounds : Nat) (n : Length) (s t : State), n ≠ 0 ∧ pairLoop rounds (runStart n s) = .go t ∧ t.idx = 4) ∧
    (∃ (n : Length) (s t : State), n ≠ 0 ∧ (pairLoop n.toNat (runStart n s)).andThen trailingByte = .go t ∧ t.idx = 7) :=
  ⟨⟨2, 8, bufState bufferA, _, by decide, rfl, by decide⟩, ⟨7, bufState bufferB, _, by decide, rfl, by decide⟩⟩

theorem witness_RunWithinTheMarginNeverOverflows : ∃ n : Length, n.toNat ≤ 131074 ∧ n = 131074 := ⟨131074, by decide⟩

/-- The clauses of `ComputeEqualsRun`: an odd number of bytes, a sum that fits, and one that does not. -/
theorem witness_ComputeEqualsRun :
    (∃ (bytes : List Byte) (n : Length) (k : Nat) (hi lo b : Byte), bytes ≠ [] ∧ n.toNat = bytes.length ∧
      wsum bytes bytes.length ≤ 0xFFFFFFFF ∧ bytes[2 * k]? = some hi ∧ bytes[2 * k + 1]? = some lo ∧
      bytes.length % 2 = 1 ∧ bytes.getLast? = some b) ∧
    (∃ (bytes : List Byte) (n : Length), bytes ≠ [] ∧ n.toNat = bytes.length ∧ 0xFFFFFFFF < wsum bytes bytes.length) := by
  refine ⟨⟨bufferB, 7, 2, 5, 6, 7, by decide⟩, ⟨List.replicate 131075 0xFF, 131075, ?_, ?_, ?_⟩⟩
  · exact List.ne_nil_of_length_pos (by rw [List.length_replicate]; omega)
  · rw [List.length_replicate]
    decide
  · have e : 131075 = 2 * 65537 + 1 := by omega
    rw [List.length_replicate, e, wsum_replicate_trailing (by omega)]
    omega

theorem witness_DecodeFollowsTheOpcodeMap :
    ∃ (w : Word) (row : Row), row ∈ opcodeTable ∧ row.selects w = true :=
  ⟨0x07000003, ⟨.rdr, 0x07000000, 0xFFFFFFFC⟩, by decide⟩

theorem witness_ReadRegisterReturnsItsView : ∃ w : Word, opField w = 0x07 ∧ 3 < argField w := ⟨0x07000004, by decide⟩

theorem witness_DecodeAndEncodeAgree : ∃ (w : Word) (i : Instr), decode w = .legal i := ⟨0x0200FFFF, .addw 0xFFFF, by decide⟩

/-- The clauses of `IllegalWordsAreTheReservedOnes`, at the boundaries of the operand ranges. -/
theorem witness_IllegalWordsAreTheReservedOnes :
    (∃ w : Word, opField w = 0x01 ∧ argField w = 0) ∧ (∃ w : Word, opField w = 0x01 ∧ argField w ≠ 0) ∧
    (∃ w : Word, opField w = 0x02 ∧ argField w = 0xFFFF) ∧ (∃ w : Word, opField w = 0x02 ∧ argField w = 0x10000) ∧
    (∃ w : Word, opField w = 0x03 ∧ argField w = 0xFF) ∧ (∃ w : Word, opField w = 0x03 ∧ argField w = 0x100) ∧
    (∃ w : Word, opField w = 0x04 ∧ argField w = 0) ∧ (∃ w : Word, opField w = 0x04 ∧ argField w ≠ 0) ∧
    (∃ w : Word, opField w = 0x05 ∧ argField w = 0) ∧ (∃ w : Word, opField w = 0x05 ∧ argField w ≠ 0) ∧
    (∃ w : Word, opField w = 0x06) ∧
    (∃ w : Word, opField w = 0x07 ∧ argField w = 3) ∧ (∃ w : Word, opField w = 0x07 ∧ argField w = 4) :=
  ⟨⟨0x01000000, by decide⟩, ⟨0x01000001, by decide⟩, ⟨0x0200FFFF, by decide⟩, ⟨0x02010000, by decide⟩,
    ⟨0x030000FF, by decide⟩, ⟨0x03000100, by decide⟩, ⟨0x04000000, by decide⟩, ⟨0x04800000, by decide⟩,
    ⟨0x05000000, by decide⟩, ⟨0x05000001, by decide⟩, ⟨0x06FFFFFF, by decide⟩, ⟨0x07000003, by decide⟩,
    ⟨0x07000004, by decide⟩⟩

theorem witness_IllegalWordsAreAnsweredAndCounted :
    ∃ (s : State) (w : Word) (why : IllegalReason) (rest : List Input),
      s.inputs = .command w :: rest ∧ decode w = .illegal why :=
  ⟨offerCommand 0 (regsState 5 3 0 0), 0, .reservedOpcode, [], by decide⟩

/-- The clauses of `SourceLinesAssembleInRange` with a hypothesis: a `COMPUTE` that assembles, and a mnemonic line's word. -/
theorem witness_SourceLinesAssembleInRange :
    (∃ (vs : List Nat) (ws : List Word), assemble (.compute vs) = some ws ∧ vs = [0xFF]) ∧
    (∃ (l : Line) (ws : List Word) (w : Word), assemble l = some ws ∧ (∀ v, l ≠ .word v) ∧ w ∈ ws) :=
  ⟨⟨[0xFF], _, rfl, rfl⟩, ⟨.addw 0xFFFF, _, 0x0200FFFF, rfl, (by intro _ h; cases h), by decide⟩⟩

theorem witness_AddPairIsAddWord :
    (∃ hi lo : Nat, hi ≤ 0xFF ∧ lo ≤ 0xFF) ∧ (∃ hi lo : Nat, 0xFF < hi ∨ 0xFF < lo) :=
  ⟨⟨0xFF, 0xFF, by decide⟩, ⟨0, 0x100, by decide⟩⟩

theorem witness_LatchedFaultRefusesAccumulation :
    ∃ (s : State) (i : Instr), s.err ≠ 0 ∧ (i.opcode = .addw ∨ i.opcode = .addt ∨ i = .fold ∨ i = .fin) :=
  ⟨regsState 0x0002DDF0 2 9 8, .fin, by decide⟩

theorem witness_LatchChangesByItsRulesOnly :
    ∃ (i : Instr) (s t : State), exec i s = .next t ∧ t.err ≠ 0 ∧ t.err ≠ s.err :=
  ⟨.addw 1, regsState 0xFFFFFFFF 0 0 0, _, rfl, by decide, by decide⟩

/-- The clauses of `LatchedFaultClearedByThreeThings`: a step that clears, a command that writes another code, an illegal word. -/
theorem witness_LatchedFaultClearedByThreeThings :
    (∃ s t : State, step s = .next t ∧ s.err ≠ 0 ∧ t.err = 0) ∧
    (∃ (i : Instr) (s t : State), exec i s = .next t ∧ s.err ≠ 0 ∧ t.err ≠ s.err) ∧
    (∃ (s t : State) (w : Word) (why : IllegalReason) (rest : List Input),
      s.inputs = .command w :: rest ∧ decode w = .illegal why ∧ step s = .next t) :=
  ⟨⟨offerCommand 0x01000000 (regsState 0 1 0 0), _, rfl, by decide, by decide⟩,
    ⟨.run 0, regsState 0 3 0 0, _, rfl, by decide, by decide⟩,
    ⟨offerCommand 0 (regsState 0 3 0 0), _, 0, .reservedOpcode, [], rfl, by decide, rfl⟩⟩

/-- Both clauses of `EveryResponseHasItsShape`. -/
theorem witness_EveryResponseHasItsShape :
    (∃ (i : Instr) (s t : State), exec i s = .next t ∧ t.sent = [⟨0, 0xDDF2⟩] ∧ i = .fold) ∧
    (∃ (s : State) (w : Word) (why : IllegalReason) (rest : List Input),
      s.inputs = .command w :: rest ∧ decode w = .illegal why) :=
  ⟨⟨.fold, regsState 0x0002DDF0 0 0 0, _, rfl, by decide, rfl⟩,
    ⟨offerCommand 0xFFFFFFFF State.reset, 0xFFFFFFFF, .reservedOpcode, [], by decide⟩⟩

theorem witness_EveryCommandIsAnsweredOnce :
    ∃ (s : State) (w : Word) (rest : List Input), s.err ≤ 3 ∧ s.inputs = .command w :: rest :=
  ⟨offerCommand 0x05000000 (regsState 7 3 0 0), 0x05000000, [], by decide⟩

/-- Three inputs that keep their premises, the two that could break one among them. -/
def keptInputs : State :=
  { bufState [1, 2, 3] with inputs :=
      [.commandRebound 0x06000002 [[1, 2, 9], [1, 2, 8]], .commandUnanswered 0x06000003 3, .command 0x05000000] }

/-- Every input `keptInputs` meets within `k` steps keeps its premises. -/
def meetsKeptInput (j : Nat) : Bool :=
  match Host.Core.run Sys2Proof.core j keptInputs with
  | .next t =>
    match t.inputs with
    | [] => true
    | i :: rest => i.keepsPremises { t with inputs := rest }
  | .fault _ => true
  | .refused _ => true

theorem witness_KeptPremisesNeverStop :
    ∃ s : State, s.inputs.length = 3 ∧
      ∀ (j : Nat) (t : State) (i : Input) (rest : List Input), j < 3 → Host.Core.run Sys2Proof.core j s = .next t →
        t.inputs = i :: rest → i.keepsPremises { t with inputs := rest } = true := by
  have hall : ∀ j < 3, meetsKeptInput j = true := by decide
  refine ⟨keptInputs, rfl, fun j t i rest hj hrun hi => ?_⟩
  have hmet := hall j hj
  rw [meetsKeptInput, hrun] at hmet
  dsimp only at hmet
  rwa [hi] at hmet

theorem witness_BoundBytesReadBack :
    ∃ (s : State) (bytes : List Byte) (rest : List Input), s.inputs = .bind bytes :: rest :=
  ⟨{ State.reset with inputs := [.bind bufferA] }, bufferA, [], rfl⟩

theorem witness_EqualReadingsAreEqualBuffers :
    ∃ m m' : Memory, m.wf = true ∧ m'.wf = true ∧ ∀ i, m.read i = m'.read i :=
  ⟨Memory.ofBytes [0, 5, 0], (Memory.ofBytes [0, 6, 0]).write 1 5, by decide, by decide, fun _ => by
    rw [show (Memory.ofBytes [0, 6, 0]).write 1 5 = Memory.ofBytes [0, 5, 0] by decide]⟩

theorem witness_EnvironmentWriteReadsBack :
    (∃ m : Memory, m.wf = true ∧ m.avail = 8) ∧
    (∃ (s : State) (i : Nat) (b : Byte) (rest : List Input), s.inputs = .poke i b :: rest) :=
  ⟨⟨Memory.ofBytes bufferA, by decide⟩, ⟨{ bufState bufferA with inputs := [.poke 7 0] }, 7, 0, [], rfl⟩⟩

/-- Every clause of `FrameOfTheRegisterCommands` has a command. -/
theorem witness_FrameOfTheRegisterCommands :
    (∃ i : Instr, (∀ n, i ≠ .run n) ∧ i ≠ .clr ∧ (i.opcode = .addw ∨ i.opcode = .addt)) ∧
    (∃ i : Instr, (∀ n, i ≠ .run n) ∧ i = .fold) ∧ (∃ i : Instr, (∀ n, i ≠ .run n) ∧ i.opcode = .rdr) :=
  ⟨⟨.addw 5, (by intro _ h; cases h), by decide, by decide⟩, ⟨.fold, (by intro _ h; cases h), rfl⟩,
    ⟨.rdr .idx, (by intro _ h; cases h), rfl⟩⟩

theorem witness_StepRunsTheDecodedCommand :
    (∃ (s : State) (w : Word) (i : Instr) (rest : List Input), s.inputs = .command w :: rest ∧ decode w = .legal i) ∧
    (∃ (nbits w : Nat) (i : Instr), decodeTableWord nbits w = some i) :=
  ⟨⟨offerCommand 0x06000001 (bufState [0xAB]), 0x06000001, .run 1, [], by decide⟩, ⟨32, 0x01000000, .clr, by decide⟩⟩

theorem witness_IdleHoldsTheState : ∃ s : State, s.inputs = [] ∧ s.err = 2 := ⟨regsState 5 2 9 8, rfl, rfl⟩

/-- Both clauses of `BufferChangeDuringRunIsRefused`: a byte inside the length changed and changed back, and one outside it. -/
theorem witness_BufferChangeDuringRunIsRefused :
    (∃ (s : State) (w : Word) (bytes : List Byte) (n : Length), s.inputs = [.commandRebound w [bytes, s.buf.bytes]] ∧
      decode w = .legal (.run n) ∧
      ¬ (s.buf.avail = bytes.length ∧ ∀ i < min n.toNat s.buf.avail, s.buf.read i = bytes[i]?)) ∧
    (∃ (s : State) (w : Word) (bytes : List Byte) (n : Length), s.inputs = [.commandRebound w [bytes]] ∧
      decode w = .legal (.run n) ∧
      (s.buf.avail = bytes.length ∧ ∀ i < min n.toNat s.buf.avail, s.buf.read i = bytes[i]?)) :=
  ⟨⟨{ bufState [1, 2, 3] with inputs := [.commandRebound 0x06000002 [[1, 9, 3], [1, 2, 3]]] }, 0x06000002, [1, 9, 3], 2,
      by decide⟩,
    ⟨{ bufState [1, 2, 3] with inputs := [.commandRebound 0x06000002 [[1, 2, 9]]] }, 0x06000002, [1, 2, 9], 2, by decide⟩⟩

/-- A byte changed and changed back during a `RUN` breaks the premise (20_memory.md rule R50). -/
theorem test_run_changed_and_restored :
    step { bufState [1, 2, 3] with inputs := [.commandRebound 0x06000002 [[1, 9, 3], [1, 2, 3]]] } =
      .refused .bufferChangedDuringRun := by rfl

theorem witness_UnansweredReadStops :
    ∃ (s : State) (w : Word) (answered : Nat) (rest : List Input), s.inputs = .commandUnanswered w answered :: rest :=
  ⟨{ bufState bufferA with inputs := [.commandUnanswered 0x06000008 3] }, 0x06000008, 3, [], rfl⟩

theorem witness_StepKeepsTheInvariant : ∃ s t : State, s.Inv ∧ step s = .next t ∧ t ≠ s :=
  ⟨offerCommand 0x04000000 (regsState 0x0001FFFE 0 0 0), _,
    ⟨by decide, by decide, by decide, by decide, by decide, by decide, by decide⟩, rfl, by decide⟩

end Sys2Proof.Tests
end

section
/-! The algorithm of 00_scope.md: the words of a byte list by index, and the padding of an odd list by a zero byte. -/

namespace Sys2Proof.Algorithm

/-- 00_scope.md R8 by index. A byte past the end is read as zero, so the trailing byte is a pair too (R8 (b)). -/
theorem wordsOf_getElem? {l : List Byte} {k : Nat} (h : 2 * k < l.length) :
    (wordsOf l)[k]? = some (be16 (l.getD (2 * k) 0) (l.getD (2 * k + 1) 0)) := by
  induction l using wordsOf.induct generalizing k with
  | case1 => simp at h
  | case2 b =>
    obtain rfl : k = 0 := by simp at h; omega
    rfl
  | case3 hi lo rest ih =>
    cases k with
    | zero => rfl
    | succ k =>
      have hk : 2 * k < rest.length := by simp at h; omega
      simpa [wordsOf, Nat.mul_add] using ih hk

theorem words_length {data : List Byte} {len : Nat} (h : len ≤ data.length) :
    (words data len).length = (len + 1) / 2 := by
  rw [words, wordsOf_length, List.length_take, Nat.min_eq_left h]

theorem words_getElem?_of_pair {data : List Byte} {len k : Nat} (hlen : len ≤ data.length) (hk : 2 * k + 1 < len) :
    (words data len)[k]? = some (be16 (data.getD (2 * k) 0) (data.getD (2 * k + 1) 0)) := by
  have hpos : 2 * k < (data.take len).length := by rw [List.length_take]; omega
  simp [words, wordsOf_getElem? hpos, hk, show 2 * k < len by omega]

theorem words_getElem?_of_trailing {data : List Byte} {k : Nat} (hlen : 2 * k + 1 ≤ data.length) :
    (words data (2 * k + 1))[k]? = some (be16 (data.getD (2 * k) 0) 0) := by
  have hpos : 2 * k < (data.take (2 * k + 1)).length := by rw [List.length_take]; omega
  simp [words, wordsOf_getElem? hpos]

/-- The added zero byte makes the trailing byte the pair it already counted as (00_scope.md R8 (b)). -/
theorem wordsOf_append_zero {l : List Byte} (h : l.length % 2 = 1) : wordsOf (l ++ [0]) = wordsOf l := by
  induction l using wordsOf.induct with
  | case1 => simp at h
  | case2 b => rfl
  | case3 hi lo rest ih =>
    have hrest : rest.length % 2 = 1 := by simp at h; omega
    simpa [wordsOf] using ih hrest

theorem words_append_zero {data : List Byte} (h : data.length % 2 = 1) :
    words (data ++ [0]) (data.length + 1) = words data data.length := by
  have hall : (data ++ [0]).take (data.length + 1) = data ++ [0] := List.take_of_length_le (by simp)
  rw [words, words, hall, List.take_length, wordsOf_append_zero h]

/-- Settles O16: each entry is a pair read by index, and the trailing byte is a pair with a zero low byte. -/
theorem wordsAreBigEndianPairs : Obligations.WordsAreBigEndianPairs := by
  intro data len _ hlen
  refine ⟨words_length hlen, fun k hk => words_getElem?_of_pair hlen (by omega), fun hodd => ?_⟩
  obtain ⟨k, rfl⟩ : ∃ k, len = 2 * k + 1 := ⟨len / 2, by omega⟩
  have hhalf : (2 * k + 1) / 2 = k := by omega
  rw [hhalf, words_getElem?_of_trailing hlen, Nat.add_sub_cancel]
  exact congrArg some (Machine.be16_zero _)

/-- Settles O18: the padded buffer has the same words, so the same sum. -/
theorem paddingKeepsTheChecksum : Obligations.PaddingKeepsTheChecksum := by
  rintro data _ rfl hodd
  rw [csum, csum, wsum, wsum, words_append_zero hodd]

end Sys2Proof.Algorithm
end

section
/-! The reset state (10_state.md R31): `CLR` produces its registers, and `RUN` sees no register of the state it starts from. -/

namespace Sys2Proof.Machine

theorem exec_clr (s : State) : exec .clr s = .next (respond codeOk 0 (clearRegs s)) := rfl

theorem exec_run (n : Length) (s : State) : exec (.run n) s = .next (runBody (runStart n s)) := rfl

@[simp] theorem reset_regs : State.reset.regs = ⟨0, 0, 0, 0⟩ := rfl

/-- Zeroing the registers before a `RUN` changes nothing: its start zeroes them again (42_run.md R101). -/
@[simp] theorem runStart_clearRegs (n : Length) (s : State) : runStart n (clearRegs s) = runStart n s := rfl

theorem exec_run_clearRegs (n : Length) (s : State) : exec (.run n) (clearRegs s) = exec (.run n) s := by
  rw [exec_run, exec_run, runStart_clearRegs]

/-- Settles O1: `CLR` responds from the cleared registers, and `RUN` depends on the started state alone. -/
theorem resetStateIsAllZero : Obligations.ResetStateIsAllZero := by
  refine ⟨reset_regs, fun s => ⟨_, exec_clr s, ?_⟩, fun n s => ?_⟩
  · rw [respond_regs, clearRegs_regs, reset_regs]
  · exact (exec_run_clearRegs n s).symm

end Sys2Proof.Machine
end

section
/-! The whole of `RUN` (42_run.md R101 to R107): it adds every word and finishes, or ends at the first word that stops it. -/

namespace Sys2Proof.Machine

open Sys2Proof.Algorithm

/-- A `RUN` that has a word to read is not `RUN 0`. -/
theorem ne_zero_of_lt_toNat {n : Length} {j : Nat} (h : j < n.toNat) : n ≠ 0 := by
  rintro rfl
  simp at h

/-- Past words that do not stop `RUN`, their bytes exist and their sum fits. -/
theorem fits_of_no_stop_before {s : State} {n : Length} {k : Nat} (hk : 2 * k ≤ n.toNat)
    (hgo : ∀ j < k, ¬ stopsAt s n j) : 2 * k ≤ s.buf.avail ∧ wsum s.buf.bytes (2 * k) ≤ 0xFFFFFFFF := by
  cases k with
  | zero => simp [wsum, words, wordsOf]
  | succ k =>
    have hlast := hgo k (by omega)
    have hmin : min (2 * k + 2) n.toNat = 2 * k + 2 := by omega
    simp only [stopsAt, lacksByte, hmin, not_or, not_lt] at hlast
    exact ⟨by omega, hlast.2⟩

/-- When no word stops `RUN`, the buffer holds every byte of the length. -/
theorem le_avail_of_no_stop {s : State} {n : Length} (h : ∀ k, 2 * k < n.toNat → ¬ stopsAt s n k) :
    n.toNat ≤ s.buf.avail := by
  by_contra hshort
  refine h ((n.toNat - 1) / 2) (by omega) (.inl ?_)
  unfold lacksByte
  omega

/-- When no word stops `RUN`, the pair loop and the trailing byte add all of them. -/
theorem addWords_of_no_stop {s : State} {n : Length} (hn : n ≠ 0) (h : ∀ k, 2 * k < n.toNat → ¬ stopsAt s n k) :
    (pairLoop n.toNat (runStart n s)).andThen trailingByte = .go (midRun s n n.toNat) := by
  obtain ⟨hN0, hsum0⟩ := fits_of_no_stop_before (s := s) (n := n) (k := 0) (by omega) (by omega)
  have hpairs := (pairLoop_midRun hn n.toNat 0 (by omega) (by omega) hN0 hsum0).1 fun j _ hj => h j (by omega)
  rw [runStart_eq_midRun, hpairs, Flow.andThen]
  rcases Nat.mod_two_eq_zero_or_one n.toNat with heven | hodd
  · rw [trailingByte_even heven, show 2 * (n.toNat / 2) = n.toNat by omega]
  · obtain ⟨hN, hsum⟩ := fits_of_no_stop_before (k := n.toNat / 2) (by omega) fun j hj => h j (by omega)
    exact (trailingByte_odd (by omega) hN hsum).2.2 (h _ (by omega))

/-- At the first word that stops `RUN`, the command ends with the fault of that word. -/
theorem addWords_of_first_stop {s : State} {n : Length} {k : Nat} (hk : 2 * k < n.toNat)
    (hgo : ∀ j < k, ¬ stopsAt s n j) :
    (lacksByte s n k →
      (pairLoop n.toNat (runStart n s)).andThen trailingByte = .ended (stopRun s n k .outOfBounds)) ∧
    (¬ lacksByte s n k → stopsAt s n k →
      (pairLoop n.toNat (runStart n s)).andThen trailingByte = .ended (stopRun s n k .accOverflow)) := by
  have hn := ne_zero_of_lt_toNat hk
  obtain ⟨hN0, hsum0⟩ := fits_of_no_stop_before (s := s) (n := n) (k := 0) (by omega) (by omega)
  obtain ⟨hall, hfirst⟩ := pairLoop_midRun hn n.toNat 0 (by omega) (by omega) hN0 hsum0
  rw [runStart_eq_midRun]
  by_cases hpair : 2 * k + 1 < n.toNat
  · obtain ⟨hlack, hover⟩ := hfirst k (by omega) hpair fun i _ hi => hgo i hi
    exact ⟨fun hl => by rw [hlack hl, Flow.andThen], fun hnl hst => by rw [hover hnl hst, Flow.andThen]⟩
  · have hhalf : n.toNat / 2 = k := by omega
    obtain ⟨hN, hsum⟩ := fits_of_no_stop_before hk.le hgo
    obtain ⟨hlack, hover, -⟩ := trailingByte_odd (by omega : n.toNat = 2 * k + 1) hN hsum
    rw [hall fun j _ hj => hgo j (by omega), hhalf, Flow.andThen]
    exact ⟨hlack, hover⟩

theorem runBody_of_zero {s : State} (h : s.len = 0) : runBody s = raise .zeroLength s := if_pos h

theorem runBody_of_go {s t : State} (hlen : s.len ≠ 0)
    (h : (pairLoop s.len.toNat s).andThen trailingByte = .go t) : runBody s = finishAndRespond t := by
  rw [runBody, if_neg hlen, h]

theorem runBody_of_ended {s t : State} (hlen : s.len ≠ 0)
    (h : (pairLoop s.len.toNat s).andThen trailingByte = .ended t) : runBody s = t := by
  rw [runBody, if_neg hlen, h]

/-- `RUN` that no word stops finishes with all its bytes added (42_run.md R105). -/
theorem exec_run_of_no_stop {s : State} {n : Length} (hn : n ≠ 0) (h : ∀ k, 2 * k < n.toNat → ¬ stopsAt s n k) :
    exec (.run n) s = .next (finishAndRespond (midRun s n n.toNat)) := by
  rw [exec_run, runBody_of_go hn (addWords_of_no_stop hn h)]

/-- `RUN` ends at its first word that lacks a byte (42_run.md R106). -/
theorem exec_run_of_lacksByte {s : State} {n : Length} {k : Nat} (hk : 2 * k < n.toNat)
    (hgo : ∀ j < k, ¬ stopsAt s n j) (hl : lacksByte s n k) :
    exec (.run n) s = .next (stopRun s n k .outOfBounds) := by
  have hn := ne_zero_of_lt_toNat hk
  rw [exec_run, runBody_of_ended hn ((addWords_of_first_stop hk hgo).1 hl)]

/-- `RUN` ends at its first word whose addition would overflow (42_run.md R107). -/
theorem exec_run_of_overflow {s : State} {n : Length} {k : Nat} (hk : 2 * k < n.toNat)
    (hgo : ∀ j < k, ¬ stopsAt s n j) (hnl : ¬ lacksByte s n k) (hst : stopsAt s n k) :
    exec (.run n) s = .next (stopRun s n k .accOverflow) := by
  have hn := ne_zero_of_lt_toNat hk
  rw [exec_run, runBody_of_ended hn ((addWords_of_first_stop hk hgo).2 hnl hst)]

/-- `RUN 0` raises ZeroLength before any read (42_run.md R102). -/
theorem exec_run_zero (s : State) : exec (.run 0) s = .next (raise .zeroLength (runStart 0 s)) := by
  rw [exec_run, runBody_of_zero (runStart_len 0 s)]

/-- All that `RUN` can do: refuse the zero length, end at its first stopping word, or finish. -/
theorem exec_run_cases (n : Length) (s : State) :
    (n = 0 ∧ exec (.run n) s = .next (raise .zeroLength (runStart n s))) ∨
    (∃ k, 2 * k < n.toNat ∧ (∀ j < k, ¬ stopsAt s n j) ∧
      ((lacksByte s n k ∧ exec (.run n) s = .next (stopRun s n k .outOfBounds)) ∨
       (¬ lacksByte s n k ∧ stopsAt s n k ∧ exec (.run n) s = .next (stopRun s n k .accOverflow)))) ∨
    (n ≠ 0 ∧ (∀ k, 2 * k < n.toNat → ¬ stopsAt s n k) ∧
      exec (.run n) s = .next (finishAndRespond (midRun s n n.toNat))) := by
  classical
  by_cases hn : n = 0
  · subst hn
    exact .inl ⟨rfl, exec_run_zero s⟩
  by_cases hstop : ∃ k, 2 * k < n.toNat ∧ stopsAt s n k
  · obtain ⟨hk, hst⟩ := Nat.find_spec hstop
    have hgo : ∀ j < Nat.find hstop, ¬ stopsAt s n j := fun j hj h => Nat.find_min hstop hj ⟨by omega, h⟩
    refine .inr (.inl ⟨_, hk, hgo, ?_⟩)
    by_cases hl : lacksByte s n (Nat.find hstop)
    · exact .inl ⟨hl, exec_run_of_lacksByte hk hgo hl⟩
    · exact .inr ⟨hl, hst, exec_run_of_overflow hk hgo hl hst⟩
  · have hgo : ∀ k, 2 * k < n.toNat → ¬ stopsAt s n k := fun k hk h => hstop ⟨k, hk, h⟩
    exact .inr (.inr ⟨hn, hgo, exec_run_of_no_stop hn hgo⟩)

@[simp] theorem midRun_err (s : State) (n : Length) (j : Nat) : (midRun s n j).err = 0 := rfl
@[simp] theorem midRun_inputs (s : State) (n : Length) (j : Nat) : (midRun s n j).inputs = s.inputs := rfl
@[simp] theorem midRun_reads (s : State) (n : Length) (j : Nat) :
    (midRun s n j).reads = s.reads ++ List.range j := rfl

@[simp] theorem stopRun_err (s : State) (n : Length) (k : Nat) (f : FaultCode) : (stopRun s n k f).err = f.code := rfl
@[simp] theorem stopRun_buf (s : State) (n : Length) (k : Nat) (f : FaultCode) : (stopRun s n k f).buf = s.buf := rfl
@[simp] theorem stopRun_inputs (s : State) (n : Length) (k : Nat) (f : FaultCode) :
    (stopRun s n k f).inputs = s.inputs := rfl
@[simp] theorem stopRun_reads (s : State) (n : Length) (k : Nat) (f : FaultCode) :
    (stopRun s n k f).reads = s.reads ++ List.range (min (min (2 * k + 2) n.toNat) (s.buf.avail + 1)) := rfl

end Sys2Proof.Machine
end

section
/-! The buffer port (20_memory.md): what a command reads, and that it writes nothing. -/

namespace Sys2Proof.Machine

/-- From `s` to `t` the buffer port was left alone: no byte written, no read issued, no input taken. -/
structure LeavesPort (s t : State) : Prop where
  buf : t.buf = s.buf
  inputs : t.inputs = s.inputs
  reads : t.reads = s.reads

theorem isRun_or_not (i : Instr) : (∃ n, i = .run n) ∨ ∀ n, i ≠ .run n := by
  by_cases h : ∃ n, i = .run n
  · exact .inl h
  · exact .inr (not_exists.mp h)

theorem addAndRespond_leavesPort (w : Word) (s : State) : LeavesPort s (addAndRespond w s) := by
  rw [addAndRespond]
  cases checkedAdd s.acc w with
  | none => exact ⟨rfl, rfl, rfl⟩
  | some acc => exact ⟨rfl, rfl, rfl⟩

/-- The refusal by a latched fault leaves the port alone too (60_exceptions.md R133). -/
theorem unlessLatched_leavesPort {effect : State → State} {s : State} (h : LeavesPort s (effect s)) :
    LeavesPort s (unlessLatched effect s) := by
  by_cases hl : s.err = 0
  · rwa [unlessLatched_of_clear hl]
  · rw [unlessLatched_of_latched hl]
    exact ⟨rfl, rfl, rfl⟩

/-- `RUN` is the only command that uses the buffer port (20_memory.md R43). -/
theorem exec_leavesPort {i : Instr} (hi : ∀ n, i ≠ .run n) (s : State) :
    ∃ t, exec i s = .next t ∧ LeavesPort s t := by
  cases i with
  | clr => exact ⟨_, rfl, rfl, rfl, rfl⟩
  | addw imm16 => exact ⟨_, rfl, unlessLatched_leavesPort (addAndRespond_leavesPort _ s)⟩
  | addt imm8 => exact ⟨_, rfl, unlessLatched_leavesPort (addAndRespond_leavesPort _ s)⟩
  | fold => exact ⟨_, rfl, unlessLatched_leavesPort ⟨rfl, rfl, rfl⟩⟩
  | fin => exact ⟨_, rfl, unlessLatched_leavesPort ⟨rfl, rfl, rfl⟩⟩
  | run n => exact absurd rfl (hi n)
  | rdr r2 => exact ⟨_, rfl, rfl, rfl, rfl⟩

/-- `RUN` has no store: however it ends, BUF stands as it was (20_memory.md R42). -/
theorem exec_run_buf_inputs (n : Length) (s : State) :
    ∃ t, exec (.run n) s = .next t ∧ t.buf = s.buf ∧ t.inputs = s.inputs := by
  rcases exec_run_cases n s with ⟨-, ht⟩ | ⟨k, -, -, ⟨-, ht⟩ | ⟨-, -, ht⟩⟩ | ⟨-, -, ht⟩ <;>
    exact ⟨_, ht, by simp, by simp⟩

/-- How far the reads of a `RUN n` from `s` that ended in `t` go, `k` of them: within the length and at most one past the buffer, all
of them on success, and past the buffer only with OutOfBounds (20_memory.md R47, R48). -/
structure ReadsUpTo (n : Length) (s t : State) (k : Nat) : Prop where
  reads : t.reads = s.reads ++ List.range k
  ofZero : n = 0 → k = 0
  leLength : k ≤ n.toNat
  leAvail : k ≤ s.buf.avail + 1
  ofSuccess : t.err = 0 → k = n.toNat ∧ k ≤ s.buf.avail
  ofAbsence : k = s.buf.avail + 1 → t.err = 2
  ofHeld : n.toNat ≤ s.buf.avail → t.err ≠ 2

/-- A `RUN` ended at word `k` has read that word's bytes, up to the first absent one. -/
theorem stopRun_readsUpTo {n : Length} {s : State} {k : Nat} {f : FaultCode} (hk : 2 * k < n.toNat)
    (hf : f = .outOfBounds ∧ lacksByte s n k ∨ f = .accOverflow ∧ ¬ lacksByte s n k) :
    ReadsUpTo n s (stopRun s n k f) (min (min (2 * k + 2) n.toNat) (s.buf.avail + 1)) where
  reads := stopRun_reads s n k f
  ofZero := by rintro rfl; simp
  leLength := by omega
  leAvail := by omega
  ofSuccess h := by rcases hf with ⟨rfl, -⟩ | ⟨rfl, -⟩ <;> exact absurd h (by simp [FaultCode.code])
  ofAbsence h := by
    rcases hf with ⟨rfl, -⟩ | ⟨-, hnl⟩
    · rfl
    · unfold lacksByte at hnl
      omega
  ofHeld h := by
    rcases hf with ⟨-, hl⟩ | ⟨rfl, -⟩
    · unfold lacksByte at hl
      omega
    · simp [FaultCode.code]

/-- A `RUN` that succeeds has read exactly its length. -/
theorem finish_readsUpTo {n : Length} {s : State} (h : n.toNat ≤ s.buf.avail) :
    ReadsUpTo n s (finishAndRespond (midRun s n n.toNat)) n.toNat where
  reads := by simp
  ofZero := by rintro rfl; rfl
  leLength := le_rfl
  leAvail := by omega
  ofSuccess _ := ⟨rfl, h⟩
  ofAbsence _ := by omega
  ofHeld _ := by simp

theorem zeroLength_readsUpTo (s : State) : ReadsUpTo 0 s (raise .zeroLength (runStart 0 s)) 0 where
  reads := by simp
  ofZero _ := rfl
  leLength := Nat.zero_le _
  leAvail := Nat.zero_le _
  ofSuccess h := absurd h (by simp [FaultCode.code])
  ofAbsence _ := by omega
  ofHeld _ := by simp [FaultCode.code]

theorem exec_run_readsUpTo (n : Length) (s : State) : ∃ t k, exec (.run n) s = .next t ∧ ReadsUpTo n s t k := by
  rcases exec_run_cases n s with ⟨rfl, ht⟩ | ⟨k, hk, -, ⟨hl, ht⟩ | ⟨hnl, -, ht⟩⟩ | ⟨-, hgo, ht⟩
  · exact ⟨_, _, ht, zeroLength_readsUpTo s⟩
  · exact ⟨_, _, ht, stopRun_readsUpTo hk (.inl ⟨rfl, hl⟩)⟩
  · exact ⟨_, _, ht, stopRun_readsUpTo hk (.inr ⟨rfl, hnl⟩)⟩
  · exact ⟨_, _, ht, finish_readsUpTo (le_avail_of_no_stop hgo)⟩

/-- Settles O26: `RUN` by how it ends, and the other commands by leaving the port alone. -/
theorem readsAscendFromZero : Obligations.ReadsAscendFromZero := by
  intro i s
  rcases isRun_or_not i with ⟨n, rfl⟩ | hi
  · obtain ⟨t, k, ht, hk⟩ := exec_run_readsUpTo n s
    refine ⟨t, k, ht, hk.reads, fun h => absurd rfl (h n), ?_⟩
    rintro _ ⟨⟩
    exact ⟨hk.ofZero, hk.leLength, hk.leAvail, hk.ofSuccess, hk.ofAbsence, hk.ofHeld⟩
  · obtain ⟨t, ht, hport⟩ := exec_leavesPort hi s
    exact ⟨t, 0, ht, by simp [hport.reads], fun _ => rfl, fun n h => absurd h (hi n)⟩

theorem exec_buf_inputs (i : Instr) (s : State) :
    ∃ t, exec i s = .next t ∧ t.buf = s.buf ∧ t.inputs = s.inputs := by
  rcases isRun_or_not i with ⟨n, rfl⟩ | hi
  · exact exec_run_buf_inputs n s
  · obtain ⟨t, ht, hport⟩ := exec_leavesPort hi s
    exact ⟨t, ht, hport.buf, hport.inputs⟩

/-- Settles O46: no way in which a command ends has a store, and an unchanged BUF reads the same at every index. -/
theorem commandsNeverWriteTheBuffer : Obligations.CommandsNeverWriteTheBuffer := by
  intro i s
  obtain ⟨t, ht, hbuf, hin⟩ := exec_buf_inputs i s
  exact ⟨t, ht, hbuf, fun a => by rw [hbuf], hin⟩

end Sys2Proof.Machine
end

section
/-! The decoder by opcode (30_encoding.md R62 to R66): a word is a legal word of an opcode when its two fields say so, and the mask and
match table, the illegal words and the number of legal words all follow from that. -/

namespace Sys2Proof

/-- A legal word of an opcode: the opcode's byte, and no argument bit outside the operand (30_encoding.md R60, R61). -/
structure LegalAs (op : Opcode) (w : Word) : Prop where
  opcode : opField w = op.code
  operand : argField w ≤ op.format.operandMask

theorem opcodeOf_of_code {w : Word} {op : Opcode} (h : opField w = op.code) : opcodeOf (opField w) = some op := by
  rw [h, opcodeOf_code]

/-- A word is a legal word of at most one opcode. -/
theorem LegalAs.unique {op op' : Opcode} {w : Word} (h : LegalAs op w) (h' : LegalAs op' w) : op = op' := by
  have hop := opcodeOf_of_code h.opcode
  rw [opcodeOf_of_code h'.opcode] at hop
  exact (Option.some.inj hop).symm

theorem decode_of_legalAs {op : Opcode} {w : Word} (h : LegalAs op w) : decode w = .legal (op.instr (argField w)) := by
  rw [decode_of_opcode (opcodeOf_of_code h.opcode), if_pos h.operand]

theorem decode_of_exceeds {op : Opcode} {w : Word} (hop : opField w = op.code)
    (harg : op.format.operandMask < argField w) : decode w = .illegal .mustBeZeroSet := by
  rw [decode_of_opcode (opcodeOf_of_code hop), if_neg (BitVec.not_le.mpr harg)]

/-- All the decoder can do (30_encoding.md R73). -/
theorem decode_cases (w : Word) :
    (∃ op, LegalAs op w ∧ decode w = .legal (op.instr (argField w))) ∨
    (∃ op : Opcode, opField w = op.code ∧ op.format.operandMask < argField w ∧ decode w = .illegal .mustBeZeroSet) ∨
    (opcodeOf (opField w) = none ∧ decode w = .illegal .reservedOpcode) := by
  cases hop : opcodeOf (opField w) with
  | none => exact .inr (.inr ⟨rfl, decode_of_reserved hop⟩)
  | some op =>
    have hcode := code_of_opcodeOf hop
    by_cases harg : argField w ≤ op.format.operandMask
    · exact .inl ⟨op, ⟨hcode, harg⟩, decode_of_legalAs ⟨hcode, harg⟩⟩
    · have hgt := BitVec.not_le.mp harg
      exact .inr (.inl ⟨op, hcode, hgt, decode_of_exceeds hcode hgt⟩)

@[simp] theorem Opcode.instr_opcode (op : Opcode) (arg : Length) : (op.instr arg).opcode = op := by cases op <;> rfl

theorem legalAs_of_decode {w : Word} {i : Instr} (h : decode w = .legal i) : LegalAs i.opcode w := by
  rcases decode_cases w with ⟨op, hlegal, hw⟩ | ⟨_, _, _, hw⟩ | ⟨_, hw⟩
  · obtain rfl := Decoded.legal.inj (hw.symm.trans h)
    rwa [Opcode.instr_opcode]
  · exact absurd (hw.symm.trans h) nofun
  · exact absurd (hw.symm.trans h) nofun

theorem decode_illegal_iff (w : Word) : (∃ why, decode w = .illegal why) ↔ ∀ op, ¬ LegalAs op w := by
  constructor
  · rintro ⟨why, hw⟩ op hlegal
    exact absurd ((decode_of_legalAs hlegal).symm.trans hw) nofun
  · intro hnone
    rcases decode_cases w with ⟨op, hlegal, _⟩ | ⟨_, _, _, hw⟩ | ⟨_, hw⟩
    · exact absurd hlegal (hnone op)
    · exact ⟨_, hw⟩
    · exact ⟨_, hw⟩

theorem decode_reserved_iff (w : Word) : decode w = .illegal .reservedOpcode ↔ opcodeOf (opField w) = none := by
  refine ⟨fun h => ?_, decode_of_reserved⟩
  rcases decode_cases w with ⟨_, _, hw⟩ | ⟨_, _, _, hw⟩ | ⟨hnone, _⟩
  · exact absurd (hw.symm.trans h) nofun
  · exact absurd (hw.symm.trans h) nofun
  · exact hnone

/-! ### The mask and match table (30_encoding.md R62) -/

/-- The row of an opcode, made from its byte and its format: the mask covers every bit that is not an operand bit. -/
def Opcode.row (op : Opcode) : Row := ⟨op, op.code ++ (0 : Length), BitVec.allOnes 8 ++ ~~~op.format.operandMask⟩

/-- The opcodes in the order of the opcode map. -/
def allOpcodes : List Opcode := [.clr, .addw, .addt, .fold, .fin, .run, .rdr]

theorem mem_allOpcodes (op : Opcode) : op ∈ allOpcodes := by cases op <;> decide

theorem opcodeTable_eq : opcodeTable = allOpcodes.map Opcode.row := by decide

theorem mem_opcodeTable_iff (row : Row) : row ∈ opcodeTable ↔ ∃ op : Opcode, op.row = row := by
  simp [opcodeTable_eq, mem_allOpcodes]

/-- A word is its two fields, said bit by bit (30_encoding.md R60). -/
theorem fields_append (w : Word) : opField w ++ argField w = w := BitVec.extractLsb'_append_extractLsb'

theorem append_eq_iff {code code' : Byte} {arg arg' : Length} :
    (code ++ arg : Word) = code' ++ arg' ↔ code = code' ∧ arg = arg' := by
  refine ⟨fun h => ?_, by rintro ⟨rfl, rfl⟩; rfl⟩
  have hop := congrArg (BitVec.extractLsb' 24 8) h
  have harg := congrArg (BitVec.extractLsb' 0 24) h
  rw [BitVec.extractLsb'_append_eq_left, BitVec.extractLsb'_append_eq_left] at hop
  rw [BitVec.extractLsb'_append_eq_right, BitVec.extractLsb'_append_eq_right] at harg
  exact ⟨hop, harg⟩

/-- `(C & mask) == match` says that the opcode is the row's and that the other masked bits are zero. -/
theorem Opcode.masked_eq_match_iff (op : Opcode) (w : Word) : w &&& op.row.mask = op.row.matchBits ↔ LegalAs op w := by
  calc w &&& op.row.mask = op.row.matchBits
      ↔ (opField w ++ argField w) &&& (BitVec.allOnes 8 ++ ~~~op.format.operandMask) = op.code ++ (0 : Length) := by
        rw [fields_append]; rfl
    _ ↔ opField w = op.code ∧ argField w &&& ~~~op.format.operandMask = 0 := by
        rw [BitVec.and_append, BitVec.and_allOnes, append_eq_iff]
    _ ↔ LegalAs op w := by
        rw [mustBeZero_iff, ← BitVec.le_def]
        exact ⟨fun ⟨hop, harg⟩ => ⟨hop, harg⟩, fun h => ⟨h.opcode, h.operand⟩⟩

/-- The same for a command with an operand: its constructor makes the words of that opcode and no others. -/
theorem Opcode.masked_eq_match_iff_exists {α : Type} (op : Opcode) (f : α → Instr) (hop : ∀ x, (f x).opcode = op)
    (hinstr : ∀ arg, ∃ x, op.instr arg = f x) (w : Word) :
    w &&& op.row.mask = op.row.matchBits ↔ ∃ x, decode w = .legal (f x) := by
  rw [op.masked_eq_match_iff]
  constructor
  · intro h
    obtain ⟨x, hx⟩ := hinstr (argField w)
    exact ⟨x, hx ▸ decode_of_legalAs h⟩
  · rintro ⟨x, hx⟩
    exact hop x ▸ legalAs_of_decode hx

theorem Opcode.row_selects_iff (op : Opcode) (w : Word) : op.row.selects w = true ↔ LegalAs op w := by
  rw [Row.selects, beq_iff_eq, op.masked_eq_match_iff]

/-- Settles O33: every row is the row of its opcode, and selects exactly the legal words of that opcode. -/
theorem decodeFollowsTheOpcodeMap : Obligations.DecodeFollowsTheOpcodeMap := by
  intro w
  refine ⟨(Opcode.clr.masked_eq_match_iff w).trans ⟨decode_of_legalAs, legalAs_of_decode⟩,
    Opcode.addw.masked_eq_match_iff_exists .addw (fun _ => rfl) (fun _ => ⟨_, rfl⟩) w,
    Opcode.addt.masked_eq_match_iff_exists .addt (fun _ => rfl) (fun _ => ⟨_, rfl⟩) w,
    (Opcode.fold.masked_eq_match_iff w).trans ⟨decode_of_legalAs, legalAs_of_decode⟩,
    (Opcode.fin.masked_eq_match_iff w).trans ⟨decode_of_legalAs, legalAs_of_decode⟩,
    Opcode.run.masked_eq_match_iff_exists .run (fun _ => rfl) (fun _ => ⟨_, rfl⟩) w,
    Opcode.rdr.masked_eq_match_iff_exists .rdr (fun _ => rfl) (fun _ => ⟨_, rfl⟩) w,
    fun row hrow row' hrow' hsel hsel' => ?_, ?_⟩
  · obtain ⟨op, rfl⟩ := (mem_opcodeTable_iff row).mp hrow
    obtain ⟨op', rfl⟩ := (mem_opcodeTable_iff row').mp hrow'
    rw [((op.row_selects_iff w).mp hsel).unique ((op'.row_selects_iff w).mp hsel')]
  · simp only [decode_illegal_iff, mem_opcodeTable_iff, forall_exists_index, forall_apply_eq_imp_iff,
      ← Bool.not_eq_true, Opcode.row_selects_iff]

/-! ### The reserved words (30_encoding.md R64, R65, R73) -/

/-- An opcode that takes no operand: the argument field is zero, or the word is illegal (30_encoding.md R65). -/
theorem decode_of_noOperand (op : Opcode) (hf : op.format = .z) {w : Word} (hop : opField w = op.code) :
    (argField w = 0 → decode w = .legal (op.instr (argField w))) ∧
    (argField w ≠ 0 → decode w = .illegal .mustBeZeroSet) := by
  refine ⟨fun h => decode_of_legalAs ⟨hop, ?_⟩, fun h => decode_of_exceeds hop ?_⟩
  · rw [hf, h]
    exact BitVec.le_refl _
  · rw [hf]
    exact (BitVec.pos_iff_ne_zero _).mpr h

/-- An operand is the low bits of the word itself (30_encoding.md R61, R63). -/
theorem argField_low (w : Word) {k : Nat} (hk : k ≤ 24) : (argField w).extractLsb' 0 k = BitVec.ofNat k w.toNat := by
  apply BitVec.eq_of_toNat_eq
  rw [BitVec.extractLsb'_toNat, BitVec.toNat_ofNat, argField_toNat, Nat.shiftRight_zero,
    Nat.mod_mod_of_dvd _ (pow_dvd_pow 2 hk)]

theorem argField_eq_ofNat (w : Word) : argField w = BitVec.ofNat 24 w.toNat := by
  rw [← argField_low w le_rfl, BitVec.extractLsb'_eq_self]

/-- Settles O34: a reserved byte names no opcode, and a defined one leaves only the bound of its operand. -/
theorem illegalWordsAreTheReservedOnes : Obligations.IllegalWordsAreTheReservedOnes := by
  refine ⟨fun w => ⟨?_, decode_of_noOperand .clr rfl, fun hop => ⟨fun harg => ?_, decode_of_exceeds (op := .addw) hop⟩,
    fun hop => ⟨fun harg => ?_, decode_of_exceeds (op := .addt) hop⟩, decode_of_noOperand .fold rfl,
    decode_of_noOperand .fin rfl, fun hop => ?_,
    fun hop => ⟨fun harg => ?_, decode_of_exceeds (op := .rdr) hop⟩⟩, by decide, by decide⟩
  · rw [decode_reserved_iff, opcodeOf_eq_none_iff]
  · rw [decode_of_legalAs (op := .addw) ⟨hop, harg⟩, Opcode.instr, argField_low w (by omega)]
  · rw [decode_of_legalAs (op := .addt) ⟨hop, harg⟩, Opcode.instr, argField_low w (by omega)]
  · have harg : argField w ≤ Opcode.run.format.operandMask := Nat.le_of_lt_succ (argField w).isLt
    rw [decode_of_legalAs ⟨hop, harg⟩, Opcode.instr, argField_eq_ofNat]
  · rw [decode_of_legalAs (op := .rdr) ⟨hop, harg⟩, Opcode.instr, argField_low w (by omega)]

/-! ### The number of legal words (30_encoding.md R66) -/

/-- The numbers of an opcode's legal words: an interval, from operand 0 to the largest operand. -/
def Opcode.wordNumbers (op : Opcode) : Finset Nat :=
  Finset.Icc (op.code.toNat * 2 ^ 24) (op.code.toNat * 2 ^ 24 + op.format.operandMask.toNat)

theorem legalAs_iff_mem_wordNumbers (op : Opcode) (w : Word) : LegalAs op w ↔ w.toNat ∈ op.wordNumbers := by
  have hw := word_toNat w
  have harg := (argField w).isLt
  have hmask := op.format.operandMask.isLt
  rw [Opcode.wordNumbers, Finset.mem_Icc]
  constructor
  · rintro ⟨hop, hle⟩
    rw [BitVec.le_def] at hle
    rw [hop] at hw
    omega
  · rintro ⟨hlo, hhi⟩
    have hop : (opField w).toNat = op.code.toNat := by omega
    exact ⟨BitVec.eq_of_toNat_eq hop, by rw [BitVec.le_def]; omega⟩

theorem Opcode.card_wordNumbers (op : Opcode) : op.wordNumbers.card = op.format.operandMask.toNat + 1 := by
  rw [Opcode.wordNumbers, Nat.card_Icc]
  omega

theorem Opcode.lt_of_mem_wordNumbers {op : Opcode} {c : Nat} (h : c ∈ op.wordNumbers) : c < 2 ^ 32 := by
  have hcode := op.code.isLt
  have hmask := op.format.operandMask.isLt
  rw [Opcode.wordNumbers, Finset.mem_Icc] at h
  omega

theorem tableWord_toNat {c : Nat} (h : c < 2 ^ 32) : (tableWord 32 c).toNat = c := by
  rw [tableWord, Nat.mod_eq_of_lt h, BitVec.toNat_ofNat, Nat.mod_eq_of_lt h]

theorem decodeTableWord_ne_none_iff {c : Nat} (h : c < 2 ^ 32) :
    decodeTableWord 32 c ≠ none ↔ ∃ op : Opcode, c ∈ op.wordNumbers := by
  have hmem : ∀ op, LegalAs op (tableWord 32 c) ↔ c ∈ op.wordNumbers := fun op => by
    rw [legalAs_iff_mem_wordNumbers, tableWord_toNat h]
  simp only [← hmem, decodeTableWord]
  cases hd : decode (tableWord 32 c) with
  | legal i => exact iff_of_true nofun ⟨_, legalAs_of_decode hd⟩
  | illegal why => exact iff_of_false (fun hne => hne rfl) (not_exists.mpr ((decode_illegal_iff _).mp ⟨why, hd⟩))

/-- The legal words below `2^32`, opcode by opcode. -/
theorem legalNumbers_eq_biUnion :
    (Finset.range (2 ^ 32)).filter (fun c => decodeTableWord 32 c ≠ none) =
      allOpcodes.toFinset.biUnion Opcode.wordNumbers := by
  ext c
  simp only [Finset.mem_filter, Finset.mem_range, Finset.mem_biUnion, List.mem_toFinset, mem_allOpcodes, true_and]
  constructor
  · rintro ⟨hc, hne⟩
    exact (decodeTableWord_ne_none_iff hc).mp hne
  · rintro ⟨op, hop⟩
    have hc := Opcode.lt_of_mem_wordNumbers hop
    exact ⟨hc, (decodeTableWord_ne_none_iff hc).mpr ⟨op, hop⟩⟩

theorem wordNumbers_disjoint {op op' : Opcode} (h : op ≠ op') : Disjoint op.wordNumbers op'.wordNumbers := by
  refine Finset.disjoint_left.mpr fun c hc hc' => h ?_
  have hw := tableWord_toNat (Opcode.lt_of_mem_wordNumbers hc)
  rw [← hw, ← legalAs_iff_mem_wordNumbers] at hc hc'
  exact hc.unique hc'

/-- One word for each value of the operand, summed over the opcodes (30_encoding.md R66). -/
theorem card_biUnion_wordNumbers : (allOpcodes.toFinset.biUnion Opcode.wordNumbers).card = 16843015 := by
  rw [Finset.card_biUnion fun _ _ _ _ h => wordNumbers_disjoint h]
  simp only [Opcode.card_wordNumbers]
  decide

/-- Settles O35: the legal words counted opcode by opcode, and the one effect of an illegal word. -/
theorem illegalWordsAreAnsweredAndCounted : Obligations.IllegalWordsAreAnsweredAndCounted := by
  refine ⟨?_, fun s w why rest hin hw => ?_⟩
  · rw [legalNumbers_eq_biUnion, card_biUnion_wordNumbers]
  · rw [Machine.step_of_input hin]
    exact Machine.acceptCommand_of_illegal hw _

end Sys2Proof
end

section
/-! The assembler's `ADDP` (30_encoding.md R70): its two bytes are the high and the low half of an `ADDW` operand. -/

namespace Sys2Proof

theorem assemble_of_wellFormed {l : Line} (h : l.wellFormed = true) : assemble l = some l.words := if_pos h

theorem assemble_of_not_wellFormed {l : Line} (h : ¬ l.wellFormed = true) : assemble l = none := if_neg h

theorem shiftLeft_or_lt {hi lo : Nat} (hhi : hi ≤ 0xFF) (hlo : lo ≤ 0xFF) : hi <<< 8 ||| lo < 2 ^ 16 := by
  rw [← Nat.shiftLeft_add_eq_or_of_lt (by omega), Nat.shiftLeft_eq]
  omega

/-- Two bytes side by side are the pair's number. -/
theorem byte_append_byte {hi lo : Nat} (hhi : hi ≤ 0xFF) (hlo : lo ≤ 0xFF) :
    BitVec.ofNat 8 hi ++ BitVec.ofNat 8 lo = BitVec.ofNat 16 (hi <<< 8 ||| lo) := by
  apply BitVec.eq_of_toNat_eq
  rw [BitVec.toNat_append, BitVec.toNat_ofNat, BitVec.toNat_ofNat, BitVec.toNat_ofNat, Nat.mod_eq_of_lt (by omega),
    Nat.mod_eq_of_lt (by omega), Nat.mod_eq_of_lt (shiftLeft_or_lt hhi hlo)]

/-- Settles O38: both lines are in range, and their operands are the same 16 bits. -/
theorem addPairIsAddWord : Obligations.AddPairIsAddWord := by
  refine ⟨fun hi lo hhi hlo => ?_, fun hi lo hout => assemble_of_not_wellFormed ?_, by decide⟩
  · have hword : hi <<< 8 ||| lo ≤ 0xFFFF := Nat.le_of_lt_succ (shiftLeft_or_lt hhi hlo)
    rw [assemble_of_wellFormed (by simp [Line.wellFormed, hhi, hlo]),
      assemble_of_wellFormed (by simp [Line.wellFormed, hword]), Line.words, Line.words, byte_append_byte hhi hlo]
  · simp only [Line.wellFormed, Bool.and_eq_true, decide_eq_true_eq]
    omega

end Sys2Proof
end

section
/-! The response of a command (30_encoding.md R67): a fault's code without data, or code 0 with the data of that command. -/

namespace Sys2Proof.Machine

open Sys2Proof.Algorithm

/-- From `s` to `t` the one response was a fault's: a code that is not 0, and no data. -/
def Fails (s t : State) : Prop := ∃ c : Code, c ≠ 0 ∧ t.sent = s.sent ++ [⟨c, 0⟩]

/-- The data of a command that succeeds (30_encoding.md R67), and what it says of the `ACC` that is left. -/
def DataOfSuccess : Instr → State → State → Word → Prop
  | .clr, _, _, d => d = 0
  | .addw _, _, _, d => d = 0
  | .addt _, _, _, d => d = 0
  | .fold, s, t, d => t.acc = foldAcc s.acc ∧ d = t.acc
  | .fin, s, t, d => t.acc = foldAcc s.acc ∧ d = complement16 t.acc
  | .run _, _, t, d => t.acc.toNat ≤ 0xFFFF ∧ d = complement16 t.acc
  | .rdr r2, s, _, d => d = readReg r2 s

/-- A command's one response, failing or successful. -/
def Responds (i : Instr) (s t : State) : Prop :=
  Fails s t ∨ ∃ d, t.sent = s.sent ++ [⟨0, d⟩] ∧ DataOfSuccess i s t d

theorem FaultCode.code_ne_zero (f : FaultCode) : f.code ≠ 0 := by cases f <;> decide

@[simp] theorem midRun_sent (s : State) (n : Length) (j : Nat) : (midRun s n j).sent = s.sent := rfl
@[simp] theorem stopRun_sent (s : State) (n : Length) (k : Nat) (f : FaultCode) :
    (stopRun s n k f).sent = s.sent ++ [⟨f.code, 0⟩] := rfl

/-- A refusal answers the latched code (60_exceptions.md R133). -/
theorem unlessLatched_responds {i : Instr} {effect : State → State} {s : State} (h : Responds i s (effect s)) :
    Responds i s (unlessLatched effect s) := by
  by_cases hl : s.err = 0
  · rwa [unlessLatched_of_clear hl]
  · rw [unlessLatched_of_latched hl]
    exact .inl ⟨s.err, hl, respond_sent ..⟩

/-- An addition answers without data, whether it fits or overflows (40_accumulate.md R81, R82). -/
theorem addAndRespond_responds {i : Instr} {s : State} (w : Word) (hi : ∀ t, DataOfSuccess i s t 0) :
    Responds i s (addAndRespond w s) := by
  rw [addAndRespond]
  cases checkedAdd s.acc w with
  | none => exact .inl ⟨_, FaultCode.code_ne_zero .accOverflow, raise_sent ..⟩
  | some acc => exact .inr ⟨0, respond_sent .., hi _⟩

theorem exec_run_responds (n : Length) (s : State) : ∃ t, exec (.run n) s = .next t ∧ Responds (.run n) s t := by
  rcases exec_run_cases n s with ⟨-, ht⟩ | ⟨k, -, -, ⟨-, ht⟩ | ⟨-, -, ht⟩⟩ | ⟨-, -, ht⟩
  · exact ⟨_, ht, .inl ⟨_, FaultCode.code_ne_zero .zeroLength, raise_sent ..⟩⟩
  · exact ⟨_, ht, .inl ⟨_, FaultCode.code_ne_zero .outOfBounds, stopRun_sent ..⟩⟩
  · exact ⟨_, ht, .inl ⟨_, FaultCode.code_ne_zero .accOverflow, stopRun_sent ..⟩⟩
  · exact ⟨_, ht, .inr ⟨_, finishAndRespond_sent _, foldAcc_le _, rfl⟩⟩

/-- Every command sends one response, of its shape (30_encoding.md R67). -/
theorem exec_responds (i : Instr) (s : State) : ∃ t, exec i s = .next t ∧ Responds i s t := by
  cases i with
  | clr => exact ⟨_, rfl, .inr ⟨0, rfl, rfl⟩⟩
  | addw imm16 => exact ⟨_, rfl, unlessLatched_responds (addAndRespond_responds _ fun _ => rfl)⟩
  | addt imm8 => exact ⟨_, rfl, unlessLatched_responds (addAndRespond_responds _ fun _ => rfl)⟩
  | fold => exact ⟨_, rfl, unlessLatched_responds (.inr ⟨_, foldAndRespond_sent s, rfl, rfl⟩)⟩
  | fin => exact ⟨_, rfl, unlessLatched_responds (.inr ⟨_, finishAndRespond_sent s, rfl, rfl⟩)⟩
  | run n => exact exec_run_responds n s
  | rdr r2 => exact ⟨_, rfl, .inr ⟨_, respond_sent .., rfl⟩⟩

/-- Settles O43: a failing response has its shape at once; a successful one by the data of its command. -/
theorem everyResponseHasItsShape : Obligations.EveryResponseHasItsShape := by
  refine ⟨fun i s => ?_, fun s w why rest hin hw => ?_⟩
  · obtain ⟨t, ht, ⟨c, hc, hsent⟩ | ⟨d, hsent, hd⟩⟩ := exec_responds i s
    · exact ⟨t, ⟨c, 0⟩, ht, hsent, fun _ => rfl, fun h => absurd h hc⟩
    · refine ⟨t, ⟨0, d⟩, ht, hsent, fun h => absurd rfl h, fun _ => ?_⟩
      cases i with
      | clr => simpa [Instr.opcode, DataOfSuccess] using hd
      | addw imm16 => simpa [Instr.opcode, DataOfSuccess] using hd
      | addt imm8 => simpa [Instr.opcode, DataOfSuccess] using hd
      | fold =>
        obtain ⟨hacc, rfl⟩ := hd
        simp [Instr.opcode, hacc, fold_le s.acc.isLt]
      | fin =>
        obtain ⟨hacc, rfl⟩ := hd
        simp [Instr.opcode, hacc, fold_le s.acc.isLt, complement16_toNat (foldAcc_le s.acc), cpl16]
      | run n =>
        obtain ⟨hle, rfl⟩ := hd
        simp [Instr.opcode, hle, complement16_toNat hle, cpl16]
      | rdr r2 => simpa [Instr.opcode, DataOfSuccess] using hd
  · rw [step_of_input hin]
    exact ⟨_, acceptCommand_of_illegal hw _, rfl⟩

end Sys2Proof.Machine
end

section
/-! The accumulate commands (40_accumulate.md R80 to R82): `CLR` from every state, and the one addition that `ADDW` and `ADDT` make of
their operands. -/

namespace Sys2Proof.Machine

theorem exec_addw (v : Half) (s : State) :
    exec (.addw v) s = .next (unlessLatched (addAndRespond (wordOperand v)) s) := rfl

theorem exec_addt (b : Byte) (s : State) :
    exec (.addt b) s = .next (unlessLatched (addAndRespond (trailingOperand b)) s) := rfl

/-- The word of a command from its opcode's place value and its operand at the operand's own width (30_encoding.md R69). -/
theorem encode_eq_or {i : Instr} {op : Opcode} {c : Word} {k : Nat} {v : BitVec k} (hop : i.opcode = op)
    (hc : op.code.setWidth 32 <<< 24 = c) (hv : i.operand = v.setWidth 24) (hk : k ≤ 24) :
    encode i = c ||| v.setWidth 32 := by
  have hnarrow : ¬ (24 < k ∧ 24 < 32) := by omega
  rw [encode, hop, hc, hv, BitVec.setWidth_setWidth hnarrow]

/-- An addition to `ACC` with its whole next state: refused, exact, or AccOverflow (40_accumulate.md R81, R85). -/
theorem unlessLatched_addAndRespond_eq (w : Word) (s : State) :
    (s.err ≠ 0 → unlessLatched (addAndRespond w) s = { s with sent := s.sent ++ [⟨s.err, 0⟩] }) ∧
    (s.err = 0 → s.acc.toNat + w.toNat ≤ 0xFFFFFFFF →
      unlessLatched (addAndRespond w) s =
        { s with acc := BitVec.ofNat 32 (s.acc.toNat + w.toNat), sent := s.sent ++ [⟨0, 0⟩] }) ∧
    (s.err = 0 → 0xFFFFFFFF < s.acc.toNat + w.toNat →
      unlessLatched (addAndRespond w) s = { s with err := 3, sent := s.sent ++ [⟨3, 0⟩] }) := by
  refine ⟨fun hlatched => ?_, fun hclear hfits => ?_, fun hclear hexceeds => ?_⟩
  · rw [unlessLatched_of_latched hlatched, respond]
  · rw [unlessLatched_of_clear hclear, addAndRespond_of_fits hfits, respond, codeOk]
  · rw [unlessLatched_of_clear hclear, addAndRespond_of_exceeds hexceeds, raise, respond, FaultCode.code]

/-- Settles O2: `CLR` responds from the cleared registers, and its opcode takes no operand. -/
theorem clearGivesTheResetState : Obligations.ClearGivesTheResetState :=
  ⟨exec_clr, by decide, by decide, fun _ hop => (decode_of_noOperand .clr rfl hop).2⟩

/-- Settles O6: `ADDW` is the addition of its operand. -/
theorem addWordIsExactOrFaults : Obligations.AddWordIsExactOrFaults := by
  refine ⟨fun v => encode_eq_or (op := .addw) rfl (by decide) rfl (by decide), fun v s => ?_⟩
  simpa only [exec_addw, Host.Outcome.next.injEq, wordOperand_toNat] using
    unlessLatched_addAndRespond_eq (wordOperand v) s

/-- Settles O7: `ADDT` is the addition of its byte times 256. -/
theorem addTrailingByteIsExactOrFaults : Obligations.AddTrailingByteIsExactOrFaults := by
  refine ⟨fun b => encode_eq_or (op := .addt) rfl (by decide) rfl (by decide), fun b s => ?_⟩
  simpa only [exec_addt, Host.Outcome.next.injEq, trailingOperand_toNat] using
    unlessLatched_addAndRespond_eq (trailingOperand b) s

end Sys2Proof.Machine
end

section
/-! The fold and finish commands (41_fold_finish.md R90, R91): the carry loop by its number of rounds, the two extreme folds, and the
whole next states of `FOLD` and `FIN`. -/

namespace Sys2Proof.Machine

open Sys2Proof.Algorithm

theorem exec_fold (s : State) : exec .fold s = .next (unlessLatched foldAndRespond s) := rfl

theorem exec_fin (s : State) : exec .fin s = .next (unlessLatched finishAndRespond s) := rfl

/-- The cut loop is `fold1` iterated, and each round it makes starts above `0xFFFF` (41_fold_finish.md R90). -/
theorem foldRounds_eq_iterate (n a : Nat) :
    ∃ k ≤ n, foldRounds n a = fold1^[k] a ∧ ∀ j < k, 0xFFFF < fold1^[j] a := by
  induction n generalizing a with
  | zero => exact ⟨0, le_rfl, rfl, nofun⟩
  | succ n ih =>
    by_cases hover : a >>> 16 = 0
    · exact ⟨0, Nat.zero_le _, if_pos hover, nofun⟩
    · obtain ⟨k, hk, hrounds, hbefore⟩ := ih (fold1 a)
      refine ⟨k + 1, Nat.succ_le_succ hk, (if_neg hover).trans hrounds, fun j hj => ?_⟩
      cases j with
      | zero =>
        rw [Nat.shiftRight_eq_div_pow] at hover
        show 0xFFFF < a
        omega
      | succ j => exact hbefore j (by omega)

/-- Only zero folds to zero (00_scope.md R12 (b)). -/
theorem fold_eq_zero_iff {a : Nat} (h : a < 2 ^ 32) : fold a = 0 ↔ a = 0 := by
  rcases fold_cases h with ⟨_, hfold⟩ | ⟨_, _, hfold⟩ | ⟨_, _, hfold⟩ <;> rw [hfold] <;> omega

/-- The positive multiples of `0xFFFF` fold to `0xFFFF` (00_scope.md R12 (e)). -/
theorem fold_eq_max_iff {a : Nat} (h : a < 2 ^ 32) : fold a = 0xFFFF ↔ 0 < a ∧ a % 0xFFFF = 0 := by
  rcases fold_cases h with ⟨_, hfold⟩ | ⟨_, _, hfold⟩ | ⟨_, _, hfold⟩ <;> rw [hfold] <;> omega

/-- The checksum of a fold is `0xFFFF` for the empty sum alone (41_fold_finish.md R91). -/
theorem cpl16_fold_eq_max_iff {a : Nat} (h : a < 2 ^ 32) : cpl16 (fold a) = 0xFFFF ↔ a = 0 := by
  rw [← fold_eq_zero_iff h, cpl16]
  omega

/-- The checksum of a fold is 0 for the positive multiples of `0xFFFF` alone (41_fold_finish.md R91). -/
theorem cpl16_fold_eq_zero_iff {a : Nat} (h : a < 2 ^ 32) : cpl16 (fold a) = 0 ↔ 0 < a ∧ a % 0xFFFF = 0 := by
  have hle := fold_le h
  rw [← fold_eq_max_iff h, cpl16]
  omega

/-- Settles O11: the rounds of the loop are the iterations of `fold1`, and the folded `ACC` is what they leave. -/
theorem foldRunsTheCarryLoop : Obligations.FoldRunsTheCarryLoop := by
  refine ⟨by decide, fun s => ⟨fun hlatched => ?_, fun hclear => ?_⟩⟩
  · rw [exec_fold, unlessLatched_of_latched hlatched, respond]
  · obtain ⟨k, hk, hrounds, hbefore⟩ := foldRounds_eq_iterate Config.foldLimit s.acc.toNat
    refine ⟨k, foldAcc s.acc, hk, (foldAcc_toNat _).trans hrounds, hbefore, foldAcc_le _, ?_⟩
    rw [exec_fold, unlessLatched_of_clear hclear]
    rfl

/-- Settles O12: the data is `cpl16` of the fold, so its extremes are those of the fold. -/
theorem finishReturnsTheComplement : Obligations.FinishReturnsTheComplement := by
  refine ⟨by decide, fun s => ⟨fun hlatched => ?_, fun hclear => ?_⟩⟩
  · rw [exec_fin, unlessLatched_of_latched hlatched, respond]
  · have hdata := complement16_toNat (foldAcc_le s.acc)
    refine ⟨foldAcc s.acc, complement16 (foldAcc s.acc), foldAcc_toNat _, hdata, foldAcc_le _, rfl, ?_, ?_, ?_⟩
    · rw [exec_fin, unlessLatched_of_clear hclear]
      rfl
    · rw [hdata, foldAcc_toNat, cpl16_fold_eq_max_iff s.acc.isLt]
    · rw [hdata, foldAcc_toNat, cpl16_fold_eq_zero_iff s.acc.isLt]

end Sys2Proof.Machine
end

section
/-! The ends of `RUN` with their whole next states (42_run.md R105 to R107): words that fit do not stop it, so the first one that does is
known from the sums and from `BUF_AVAIL`. -/

namespace Sys2Proof.Algorithm

/-- The sum of the first pairs is part of the sum of any longer length. -/
theorem wsum_pairs_le (data : List Byte) {k m : Nat} (h : 2 * k ≤ m) : wsum data (2 * k) ≤ wsum data m := by
  have hwords : words data (2 * k) = (words data m).take k := by
    rw [words, words, ← wordsOf_take, List.take_take, Nat.min_eq_left h]
  rw [wsum, wsum, hwords]
  exact (List.take_sublist k _).sum_le_sum fun w _ => Nat.zero_le w

end Sys2Proof.Algorithm

namespace Sys2Proof.Machine

open Sys2Proof.Algorithm

/-- A word inside a length that the buffer holds and whose sum fits does not stop `RUN`. -/
theorem not_stopsAt_of_fits {s : State} {n : Length} {k m : Nat} (hk : 2 * k < n.toNat)
    (hword : min (2 * k + 2) n.toNat ≤ m) (hm : m ≤ n.toNat) (hN : m ≤ s.buf.avail)
    (hsum : wsum s.buf.bytes m ≤ 0xFFFFFFFF) : ¬ stopsAt s n k := by
  have hle : wsum s.buf.bytes (min (2 * k + 2) n.toNat) ≤ wsum s.buf.bytes m := by
    rcases Nat.lt_or_ge n.toNat (2 * k + 2) with hlast | hpair
    · rw [show min (2 * k + 2) n.toNat = m by omega]
    · rw [show min (2 * k + 2) n.toNat = 2 * (k + 1) by omega]
      exact wsum_pairs_le _ (by omega)
  rintro (hl | hover)
  · unfold lacksByte at hl
    omega
  · omega

/-- The words before word `k` do not stop `RUN` when their bytes exist and their sum fits: the converse of `fits_of_no_stop_before`. -/
theorem no_stop_before_of_fits {s : State} {n : Length} {k : Nat} (hk : 2 * k ≤ n.toNat) (hN : 2 * k ≤ s.buf.avail)
    (hsum : wsum s.buf.bytes (2 * k) ≤ 0xFFFFFFFF) : ∀ j < k, ¬ stopsAt s n j :=
  fun _ _ => not_stopsAt_of_fits (by omega) (by omega) hk hN hsum

/-- The data of a successful `RUN` is the checksum of its bytes (42_run.md R105). -/
theorem finish_midRun_eq {s : State} {n : Length} (hsum : wsum s.buf.bytes n.toNat ≤ 0xFFFFFFFF) :
    finishAndRespond (midRun s n n.toNat) = { s with
      acc := BitVec.ofNat 32 (fold (wsum s.buf.bytes n.toNat)), err := 0, len := n, idx := n,
      sent := s.sent ++ [⟨0, BitVec.ofNat 32 (csum s.buf.bytes n.toNat)⟩],
      reads := s.reads ++ List.range n.toNat } := by
  have hacc : (foldAcc (midRun s n n.toNat).acc).toNat = fold (wsum s.buf.bytes n.toNat) := by
    rw [foldAcc_toNat, midRun_acc_toNat hsum]
  have hdata : (complement16 (foldAcc (midRun s n n.toNat).acc)).toNat = csum s.buf.bytes n.toNat := by
    rw [complement16_toNat (foldAcc_le _), hacc, csum]
  have hidx : (midRun s n n.toNat).idx = n := by rw [midRun, BitVec.ofNat_toNat, BitVec.setWidth_eq]
  rw [← hacc, ← hdata, BitVec.ofNat_toNat, BitVec.ofNat_toNat, BitVec.setWidth_eq, BitVec.setWidth_eq]
  exact State.ext_fields rfl rfl rfl hidx rfl rfl rfl rfl

/-- Settles O20: no word stops such a `RUN`, so it finishes. -/
theorem runReturnsTheChecksum : Obligations.RunReturnsTheChecksum := by
  intro n s hn hN hsum
  have hgo : ∀ k, 2 * k < n.toNat → ¬ stopsAt s n k := fun k hk =>
    not_stopsAt_of_fits hk (Nat.min_le_right _ _) le_rfl hN hsum
  rw [exec_run_of_no_stop hn hgo, finish_midRun_eq hsum]

/-- What a command other than `RUN` does to the latch (10_state.md R23): `CLR` clears it, and an addition that finds it clear may latch
AccOverflow. -/
theorem exec_err_cases {i : Instr} (hi : ∀ n, i ≠ .run n) (s : State) :
    ∃ t, exec i s = .next t ∧ (t.err = s.err ∨ i = .clr ∧ t.err = 0 ∨
      s.err = 0 ∧ t.err = 3 ∧ (i.opcode = .addw ∨ i.opcode = .addt)) := by
  have hadd : ∀ w : Word, (unlessLatched (addAndRespond w) s).err = s.err ∨
      s.err = 0 ∧ (unlessLatched (addAndRespond w) s).err = 3 := by
    intro w
    obtain ⟨hlatched, hfits, hexceeds⟩ := unlessLatched_addAndRespond_eq w s
    by_cases hclear : s.err = 0
    · rcases Nat.lt_or_ge 0xFFFFFFFF (s.acc.toNat + w.toNat) with hover | hfit
      · exact .inr ⟨hclear, by rw [hexceeds hclear hover]⟩
      · exact .inl (by rw [hfits hclear hfit])
    · exact .inl (by rw [hlatched hclear])
  have hkeep : ∀ effect : State → State, (effect s).err = s.err → (unlessLatched effect s).err = s.err := by
    intro effect heffect
    by_cases hclear : s.err = 0
    · rwa [unlessLatched_of_clear hclear]
    · rw [unlessLatched_of_latched hclear, respond_err]
  cases i with
  | clr => exact ⟨_, exec_clr s, .inr (.inl ⟨rfl, rfl⟩)⟩
  | addw v => exact ⟨_, exec_addw v s, (hadd _).imp_right fun ⟨h0, h3⟩ => .inr ⟨h0, h3, .inl rfl⟩⟩
  | addt b => exact ⟨_, exec_addt b s, (hadd _).imp_right fun ⟨h0, h3⟩ => .inr ⟨h0, h3, .inr rfl⟩⟩
  | fold => exact ⟨_, exec_fold s, .inl (hkeep _ (foldAndRespond_err s))⟩
  | fin => exact ⟨_, exec_fin s, .inl (hkeep _ (finishAndRespond_err s))⟩
  | run n => exact absurd rfl (hi n)
  | rdr r2 => exact ⟨_, rfl, .inl rfl⟩

/-- Code 2 is latched by a `RUN` longer than the buffer alone (42_run.md R106). -/
theorem run_of_latches_outOfBounds {i : Instr} {s t : State} (ht : exec i s = .next t) (hs : s.err ≠ 2)
    (h2 : t.err = 2) : ∃ n, i = .run n ∧ s.buf.avail < n.toNat := by
  rcases isRun_or_not i with ⟨n, rfl⟩ | hi
  · obtain ⟨u, k, hu, hreads⟩ := exec_run_readsUpTo n s
    obtain rfl : u = t := by simpa [hu] using ht
    exact ⟨n, rfl, Nat.lt_of_not_le fun hheld => hreads.ofHeld hheld h2⟩
  · obtain ⟨u, hu, herr⟩ := exec_err_cases hi s
    obtain rfl : u = t := by simpa [hu] using ht
    rw [h2] at herr
    rcases herr with hsame | ⟨-, h0⟩ | ⟨-, h3, -⟩
    · exact absurd hsame.symm hs
    · exact absurd h0 (by decide)
    · exact absurd h3 (by decide)

/-- Settles O22: the first word that lacks a byte is the one after the complete pairs. -/
theorem runShortBufferFaults : Obligations.RunShortBufferFaults := by
  refine ⟨fun n s hshort hsum => ?_, fun i s t => run_of_latches_outOfBounds⟩
  have hlacks : lacksByte s n (s.buf.avail / 2) := by unfold lacksByte; omega
  have hreads : min (min (2 * (s.buf.avail / 2) + 2) n.toNat) (s.buf.avail + 1) = s.buf.avail + 1 := by omega
  rw [exec_run_of_lacksByte (by omega) (no_stop_before_of_fits (by omega) (by omega) hsum) hlacks, stopRun, hreads]
  rfl

/-- Settles O23: word `k` is the first to stop `RUN`, by its addition when it has its bytes, and by its absent byte otherwise. -/
theorem runOverflowFaults : Obligations.RunOverflowFaults := by
  refine ⟨fun n s k hk hbytes hsum hover => ?_, fun n s k hk hN hshort hsum => ?_⟩
  · have hheld : ¬ lacksByte s n k := by unfold lacksByte; omega
    have hreads : min (min (2 * k + 2) n.toNat) (s.buf.avail + 1) = min (2 * k + 2) n.toNat := by omega
    rw [exec_run_of_overflow hk (no_stop_before_of_fits hk.le (by omega) hsum) hheld (.inr hover), stopRun, hreads]
    rfl
  · have hlacks : lacksByte s n k := by unfold lacksByte; omega
    exact ⟨_, exec_run_of_lacksByte hk (no_stop_before_of_fits hk.le hN hsum) hlacks, rfl,
      midRun_idx_toNat (s := s) hk.le⟩

end Sys2Proof.Machine
end

section
/-! What `RUN` depends on (42_run.md R109): whether a word stops it, and the sum before that word, come from its operand, `BUF_AVAIL` and
the bytes below both. -/

namespace Sys2Proof.Machine

open Sys2Proof.Algorithm

/-- The buffers of the two states have one size and agree on the bytes below it that a `RUN n` may read (42_run.md R109). -/
structure SameInput (n : Length) (s s' : State) : Prop where
  avail : s.buf.avail = s'.buf.avail
  read : ∀ i < min n.toNat s.buf.avail, s.buf.read i = s'.buf.read i

theorem SameInput.wsum_eq {n : Length} {s s' : State} (h : SameInput n s s') {m : Nat} (hm : m ≤ n.toNat) :
    wsum s.buf.bytes m = wsum s'.buf.bytes m := by
  have htake : s.buf.bytes.take m = s'.buf.bytes.take m := by
    refine List.ext_getElem? fun i => ?_
    rw [List.getElem?_take, List.getElem?_take, Memory.bytes_getElem?, Memory.bytes_getElem?]
    by_cases hi : i < m
    · by_cases hN : i < s.buf.avail
      · rw [h.read i (by omega)]
      · rw [Memory.read_eq_none (by omega), Memory.read_eq_none (by rw [← h.avail]; omega)]
    · rw [if_neg hi, if_neg hi]
  rw [wsum, wsum, words, words, htake]

theorem SameInput.lacksByte_iff {n : Length} {s s' : State} (h : SameInput n s s') (k : Nat) :
    lacksByte s n k ↔ lacksByte s' n k := by
  rw [lacksByte, lacksByte, h.avail]

theorem SameInput.stopsAt_iff {n : Length} {s s' : State} (h : SameInput n s s') (k : Nat) :
    stopsAt s n k ↔ stopsAt s' n k := by
  rw [stopsAt, stopsAt, h.lacksByte_iff, h.wsum_eq (Nat.min_le_right _ _)]

theorem SameInput.midRun_regs {n : Length} {s s' : State} (h : SameInput n s s') {j : Nat} (hj : j ≤ n.toNat) :
    (midRun s n j).regs = (midRun s' n j).regs := by
  simp only [State.regs, midRun, h.wsum_eq hj]

/-- Two commands, from `s` to `t` and from `s'` to `t'`, leave the same registers, answer alike and read the same indices. -/
structure EndAlike (s s' t t' : State) (r : Response) (l : List Nat) : Prop where
  regs : t.regs = t'.regs
  sent : t.sent = s.sent ++ [r]
  sent' : t'.sent = s'.sent ++ [r]
  reads : t.reads = s.reads ++ l
  reads' : t'.reads = s'.reads ++ l

theorem SameInput.stopRun_endAlike {n : Length} {s s' : State} (h : SameInput n s s') {k : Nat} (hk : 2 * k ≤ n.toNat)
    (f : FaultCode) : EndAlike s s' (stopRun s n k f) (stopRun s' n k f) ⟨f.code, 0⟩
      (List.range (min (min (2 * k + 2) n.toNat) (s.buf.avail + 1))) where
  regs := congrArg (fun regs : Regs => { regs with err := f.code }) (h.midRun_regs hk)
  sent := stopRun_sent s n k f
  sent' := stopRun_sent s' n k f
  reads := stopRun_reads s n k f
  reads' := by rw [stopRun_reads, h.avail]

theorem SameInput.finish_endAlike {n : Length} {s s' : State} (h : SameInput n s s') :
    EndAlike s s' (finishAndRespond (midRun s n n.toNat)) (finishAndRespond (midRun s' n n.toNat))
      ⟨codeOk, complement16 (foldAcc (midRun s n n.toNat).acc)⟩ (List.range n.toNat) where
  regs := congrArg (fun regs : Regs => { regs with acc := foldAcc regs.acc }) (h.midRun_regs le_rfl)
  sent := finishAndRespond_sent _
  sent' := by
    have hacc : (midRun s n n.toNat).acc = (midRun s' n n.toNat).acc := congrArg Regs.acc (h.midRun_regs le_rfl)
    rw [finishAndRespond_sent, midRun_sent, hacc]
  reads := by simp
  reads' := by simp

/-- `RUN` ends the same way from states with the same input: at the same first stopping word, or with all words added. -/
theorem SameInput.exec_run_endAlike {n : Length} {s s' : State} (h : SameInput n s s') :
    ∃ t t' r l, exec (.run n) s = .next t ∧ exec (.run n) s' = .next t' ∧ EndAlike s s' t t' r l := by
  rcases exec_run_cases n s with ⟨rfl, ht⟩ | ⟨k, hk, hgo, hend⟩ | ⟨hn, hgo, ht⟩
  · exact ⟨_, _, ⟨1, 0⟩, [], ht, exec_run_zero s', rfl, rfl, rfl, by simp, by simp⟩
  · have hgo' : ∀ j < k, ¬ stopsAt s' n j := fun j hj => (h.stopsAt_iff j).not.mp (hgo j hj)
    rcases hend with ⟨hl, ht⟩ | ⟨hnl, hst, ht⟩
    · have ht' := exec_run_of_lacksByte hk hgo' ((h.lacksByte_iff k).mp hl)
      exact ⟨_, _, _, _, ht, ht', h.stopRun_endAlike hk.le _⟩
    · have ht' := exec_run_of_overflow hk hgo' ((h.lacksByte_iff k).not.mp hnl) ((h.stopsAt_iff k).mp hst)
      exact ⟨_, _, _, _, ht, ht', h.stopRun_endAlike hk.le _⟩
  · have ht' := exec_run_of_no_stop hn fun k hk => (h.stopsAt_iff k).not.mp (hgo k hk)
    exact ⟨_, _, _, _, ht, ht', h.finish_endAlike⟩

/-- Settles O25: equal buffers below the operand are the same input, and `RUN` ends alike on it. -/
theorem runDependsOnItsInputsOnly : Obligations.RunDependsOnItsInputsOnly := by
  intro n s s' havail hread
  obtain ⟨t, t', r, l, ht, ht', halike⟩ := SameInput.exec_run_endAlike (n := n) ⟨havail, hread⟩
  exact ⟨t, t', r, l, ht, ht', halike.regs, halike.sent, halike.sent', halike.reads, halike.reads'⟩

end Sys2Proof.Machine
end

section
/-! The zero length (42_run.md R102, 60_exceptions.md R134): refused by `RUN`, while `CLR` then `FIN` return a constant. -/

namespace Sys2Proof.Machine

theorem execAll_cons_of_next {i : Instr} {s t : State} (h : exec i s = .next t) (rest : List Instr) :
    execAll (i :: rest) s = execAll rest t := by
  rw [execAll, h]

/-- `FIN` on a cleared `ACC` returns the complement of zero (60_exceptions.md R134). -/
theorem finishAndRespond_of_acc_zero {s : State} (h : s.acc = 0) :
    finishAndRespond s = respond codeOk 0x0000FFFF s := by
  have hfold : foldAcc s.acc = s.acc := by rw [h]; decide
  have hdata : complement16 s.acc = 0x0000FFFF := by rw [h]; decide
  have hsent : (finishAndRespond s).sent = s.sent ++ [⟨codeOk, 0x0000FFFF⟩] := by
    rw [finishAndRespond_sent, hfold, hdata]
  exact State.ext_fields hfold rfl rfl rfl rfl rfl hsent rfl

/-- Settles O21: the zero-length test comes before any read, and `FIN` finds the registers as `CLR` leaves them. -/
theorem runZeroLengthFaults : Obligations.RunZeroLengthFaults := by
  refine ⟨exec_run_zero, fun s => ?_⟩
  rw [execAll_cons_of_next (exec_clr s), execAll_cons_of_next (exec_fin _), unlessLatched_of_clear rfl,
    finishAndRespond_of_acc_zero rfl, execAll]
  simp only [respond, List.append_assoc]
  rfl

end Sys2Proof.Machine
end

section
/-! The register read (43_system.md R120): one response with the register's view, latched fault or not, and nothing else. -/

namespace Sys2Proof.Machine

/-- The state after `RDR`: the test of the latch is absent, and only the response is new (43_system.md R120). -/
theorem exec_rdr (r : RegNum) (s : State) :
    exec (.rdr r) s = .next { s with sent := s.sent ++ [⟨0, readReg r s⟩] } := rfl

/-! What `RDR` returns, by register: the narrower registers are zero-extended to the word (10_state.md R26). -/

theorem readReg_acc (s : State) : readReg .acc s = s.acc := rfl

theorem readReg_status (s : State) : readReg .status s = BitVec.ofNat 32 s.err.toNat := (BitVec.ofNat_toNat 32 s.err).symm

theorem readReg_len (s : State) : readReg .len s = BitVec.ofNat 32 s.len.toNat := (BitVec.ofNat_toNat 32 s.len).symm

theorem readReg_idx (s : State) : readReg .idx s = BitVec.ofNat 32 s.idx.toNat := (BitVec.ofNat_toNat 32 s.idx).symm

/-- Settles O30: `RDR` sends the view its number names, and its operand mask is 3. -/
theorem readRegisterReturnsItsView : Obligations.ReadRegisterReturnsItsView := by
  refine ⟨fun r => encode_eq_or (op := .rdr) rfl (by decide) rfl (by decide), fun s => ⟨?acc, ?status, ?len, ?idx⟩,
    by decide, fun w hop => decode_of_exceeds (op := .rdr) hop⟩
  case acc => rw [exec_rdr, readReg_acc]
  case status => rw [exec_rdr, readReg_status]
  case len => rw [exec_rdr, readReg_len]
  case idx => rw [exec_rdr, readReg_idx]

end Sys2Proof.Machine
end

section
/-! The latch (60_exceptions.md R133, R140): what a latched fault refuses, and all that clears it. -/

namespace Sys2Proof.Machine

/-- Settles O40: the four accumulation commands test the latch first; `CLR` and `RUN` clear it themselves and `RDR` has no test. -/
theorem latchedFaultRefusesAccumulation : Obligations.LatchedFaultRefusesAccumulation := by
  intro s hlatched
  refine ⟨fun i hi => ?_, ⟨_, exec_clr s, rfl⟩, fun n => rfl, fun r => ⟨_, _, exec_rdr r s, rfl⟩⟩
  have hrefused (effect : State → State) : unlessLatched effect s = { s with sent := s.sent ++ [⟨s.err, 0⟩] } :=
    unlessLatched_of_latched hlatched effect
  cases i with
  | addw v => rw [exec_addw, hrefused]
  | addt b => rw [exec_addt, hrefused]
  | fold => rw [exec_fold, hrefused]
  | fin => rw [exec_fin, hrefused]
  | clr => simp [Instr.opcode] at hi
  | run n => simp [Instr.opcode] at hi
  | rdr r => simp [Instr.opcode] at hi

/-- The commands that change a latched code: an addition, the one other command that writes `ERR`, is refused. -/
theorem clr_or_run_of_changes_latch {i : Instr} {s t : State} (ht : exec i s = .next t) (hlatched : s.err ≠ 0)
    (hchanged : t.err ≠ s.err) : i = .clr ∨ ∃ n, i = .run n := by
  rcases isRun_or_not i with hrun | hi
  · exact .inr hrun
  · obtain ⟨u, hu, herr⟩ := exec_err_cases hi s
    obtain rfl := Host.Outcome.next.inj (hu.symm.trans ht)
    rcases herr with hsame | ⟨hclr, -⟩ | ⟨hclear, -⟩
    · exact absurd hsame hchanged
    · exact .inl hclr
    · exact absurd hclear hlatched

/-- The words that change a latched code: an illegal one leaves it (60_exceptions.md R132). -/
theorem clr_or_run_word_of_changes_latch {w : Word} {s t : State} (ht : acceptCommand w s = .next t)
    (hlatched : s.err ≠ 0) (hchanged : t.err ≠ s.err) :
    decode w = .legal .clr ∨ ∃ n, decode w = .legal (.run n) := by
  cases hw : decode w with
  | legal i =>
    rw [acceptCommand_of_legal hw] at ht
    exact (clr_or_run_of_changes_latch ht hlatched hchanged).imp (congrArg _) (Exists.imp fun _ => congrArg _)
  | illegal why =>
    obtain rfl := Host.Outcome.next.inj ((acceptCommand_of_illegal hw s).symm.trans ht)
    exact absurd (respond_err ..) hchanged

/-- All an accepted input can do when the machine goes on: reset, execute the word it carries, or let the environment act on BUF
(log 6 to log 9). -/
theorem acceptInput_next_cases {i : Input} {s t : State} (h : acceptInput i s = .next t) :
    (i = .reset ∧ t = clearRegs s) ∨
    (∃ w made, i = .resetDuring w made ∧ t = abandonCommand w made s) ∨
    (∃ w u buf, i.answeredWord = some w ∧ acceptCommand w s = .next u ∧ t = { u with buf := buf }) ∨
    (i.answeredWord = none ∧ ∃ buf, t = { s with buf := buf }) := by
  cases i with
  | command w => exact .inr (.inr (.inl ⟨w, t, t.buf, rfl, h, rfl⟩))
  | reset => exact .inl ⟨rfl, (Host.Outcome.next.inj h).symm⟩
  | resetDuring w made => exact .inr (.inl ⟨w, made, rfl, (Host.Outcome.next.inj h).symm⟩)
  | bind bytes => exact .inr (.inr (.inr ⟨rfl, _, (Host.Outcome.next.inj h).symm⟩))
  | poke index value => exact .inr (.inr (.inr ⟨rfl, _, (Host.Outcome.next.inj h).symm⟩))
  | commandRebound w bound =>
    rcases acceptRebound_cases w (bound.map Memory.ofBytes) s with ⟨-, u, hu, hr⟩ | ⟨-, hr⟩
    · exact .inr (.inr (.inl ⟨w, u, _, rfl, hu, Host.Outcome.next.inj (h.symm.trans hr)⟩))
    · exact absurd (h.symm.trans hr) nofun
  | commandUnanswered w answered =>
    rw [acceptInput, acceptUnanswered] at h
    split at h
    · exact absurd h nofun
    · exact .inr (.inr (.inl ⟨w, t, t.buf, rfl, h, rfl⟩))

/-- The inputs that change a latched code (60_exceptions.md R140). -/
theorem resets_or_clears_of_changes_latch {i : Input} {s t : State} (h : acceptInput i s = .next t)
    (hlatched : s.err ≠ 0) (hchanged : t.err ≠ s.err) :
    i = .reset ∨ (∃ w made, i = .resetDuring w made) ∨
      ∃ w, i.answeredWord = some w ∧ (decode w = .legal .clr ∨ ∃ n, decode w = .legal (.run n)) := by
  rcases acceptInput_next_cases h with
    ⟨hi, -⟩ | ⟨w, made, hi, -⟩ | ⟨w, u, buf, hword, hu, rfl⟩ | ⟨-, buf, rfl⟩
  · exact .inl hi
  · exact .inr (.inl ⟨w, made, hi⟩)
  · exact .inr (.inr ⟨w, hword, clr_or_run_word_of_changes_latch hu hlatched hchanged⟩)
  · exact absurd rfl hchanged

/-- A step on the reset input (70_reset_and_hazards.md R160). -/
theorem step_of_reset {s : State} {rest : List Input} (h : s.inputs = .reset :: rest) :
    step s = .next (clearRegs { s with inputs := rest }) := step_of_input h

/-- Settles O42: a step that clears the latch takes an input that changes it; the three causes leave, or start from, the cleared
registers; and an illegal word only responds. -/
theorem latchedFaultClearedByThreeThings : Obligations.LatchedFaultClearedByThreeThings := by
  refine ⟨fun s t hstep hlatched hclear => ?_, fun s => ⟨_, exec_clr s, rfl⟩, fun n s => (exec_run_clearRegs n s).symm,
    fun s rest => ⟨_, step_of_reset rfl, clearRegs_regs _⟩, fun i s t => clr_or_run_of_changes_latch,
    fun s t w why rest hin hw hstep => ?_⟩
  · have hchanged : t.err ≠ s.err := fun hsame => hlatched (hsame ▸ hclear)
    rcases step_next_cases hstep with ⟨-, rfl⟩ | ⟨i, rest, hin, hi⟩
    · exact absurd rfl hchanged
    · exact ⟨i, rest, hin, resets_or_clears_of_changes_latch hi hlatched hchanged⟩
  · have hresponds : step s = .next (respond codeIllegal 0 { s with inputs := rest }) :=
      (step_of_input hin).trans (acceptCommand_of_illegal hw _)
    rw [← Host.Outcome.next.inj (hresponds.symm.trans hstep), respond_err]

end Sys2Proof.Machine
end

section
/-! The reset input between commands (70_reset_and_hazards.md R160): the registers cleared, the ports otherwise as they were. -/

namespace Sys2Proof.Machine

/-- Settles O3: the reset input clears the registers and sends nothing; `CLR` clears the same registers and then responds. -/
theorem resetInputClearsWithoutResponse : Obligations.ResetInputClearsWithoutResponse := by
  intro s rest hinputs
  have hclr : (respond codeOk 0 (clearRegs s)).regs = ⟨0, 0, 0, 0⟩ := by rw [respond_regs, clearRegs_regs]
  exact ⟨step_of_reset hinputs, _, exec_clr s, hclr⟩

end Sys2Proof.Machine
end

section
/-! Decoding and encoding (30_encoding.md R60 to R63, R69): the word of a command has its two fields, and a legal word is the word of the
command it decodes to. -/

namespace Sys2Proof

/-- The fields of every command's word (`Laws.EncodedFields`, command by command). -/
theorem encoded_fields (i : Instr) : Laws.EncodedFields.Statement i := by
  cases i with
  | clr => exact Laws.EncodedFields.clr
  | addw imm16 => exact Laws.EncodedFields.addw imm16
  | addt imm8 => exact Laws.EncodedFields.addt imm8
  | fold => exact Laws.EncodedFields.fold
  | fin => exact Laws.EncodedFields.fin
  | run len24 => exact Laws.EncodedFields.run len24
  | rdr r2 => exact Laws.EncodedFields.rdr r2

theorem encode_legalAs (i : Instr) : LegalAs i.opcode (encode i) := by
  obtain ⟨hop, harg, hle⟩ := encoded_fields i
  exact ⟨hop, by rwa [harg]⟩

theorem encode_eq_append (i : Instr) : encode i = i.opcode.code ++ i.operand := by
  obtain ⟨hop, harg, -⟩ := encoded_fields i
  rw [← fields_append (encode i), hop, harg]

/-- An operand read back from its right-aligned field is itself (30_encoding.md R61, R63). -/
theorem extractLsb'_setWidth_of_le {k m : Nat} (h : k ≤ m) (v : BitVec k) :
    (v.setWidth m).extractLsb' 0 k = v := by
  rw [← BitVec.setWidth_eq_extractLsb' h, BitVec.setWidth_setWidth_of_le v h, BitVec.setWidth_eq]

theorem ofBits_toBits (r : RegNum) : RegNum.ofBits r.toBits = r := by cases r <;> rfl

theorem toBits_ofBits (b : BitVec 2) : (RegNum.ofBits b).toBits = b := by
  revert b
  decide

/-- A command is its opcode and its operand. -/
theorem instr_operand (i : Instr) : i.opcode.instr i.operand = i := by
  cases i with
  | clr => rfl
  | addw imm16 => exact congrArg Instr.addw (extractLsb'_setWidth_of_le (by decide) imm16)
  | addt imm8 => exact congrArg Instr.addt (extractLsb'_setWidth_of_le (by decide) imm8)
  | fold => rfl
  | fin => rfl
  | run len24 => rfl
  | rdr r2 =>
    rw [Instr.opcode, Instr.operand, Opcode.instr, extractLsb'_setWidth_of_le (by decide), ofBits_toBits]

/-- The low bits of an argument field that has no other bit. -/
theorem setWidth_extractLsb'_of_lt {k : Nat} {arg : Length} (h : arg.toNat < 2 ^ k) :
    (arg.extractLsb' 0 k).setWidth 24 = arg := by
  apply BitVec.eq_of_toNat_eq
  rw [BitVec.toNat_setWidth, BitVec.extractLsb'_toNat, Nat.shiftRight_zero, Nat.mod_eq_of_lt h,
    Nat.mod_eq_of_lt arg.isLt]

/-- An argument field inside the operand mask is the operand of the command made from it. -/
theorem operand_instr {op : Opcode} {arg : Length} (h : arg ≤ op.format.operandMask) : (op.instr arg).operand = arg := by
  have hzero : arg ≤ 0 → 0 = arg := fun hle => (BitVec.le_zero_iff.mp hle).symm
  cases op with
  | clr => exact hzero h
  | addw => exact setWidth_extractLsb'_of_lt (Nat.lt_succ_of_le h)
  | addt => exact setWidth_extractLsb'_of_lt (Nat.lt_succ_of_le h)
  | fold => exact hzero h
  | fin => exact hzero h
  | run => rfl
  | rdr =>
    rw [Opcode.instr, Instr.operand, toBits_ofBits]
    exact setWidth_extractLsb'_of_lt (Nat.lt_succ_of_le h)

theorem decode_encode (i : Instr) : decode (encode i) = .legal i := by
  obtain ⟨-, harg, -⟩ := encoded_fields i
  rw [decode_of_legalAs (encode_legalAs i), harg, instr_operand]

theorem encode_of_decode {w : Word} {i : Instr} (h : decode w = .legal i) : encode i = w := by
  have hlegal := legalAs_of_decode h
  have hi : i.opcode.instr (argField w) = i := Decoded.legal.inj ((decode_of_legalAs hlegal).symm.trans h)
  have hoperand : i.operand = argField w := by rw [← operand_instr hlegal.operand, hi]
  rw [encode_eq_append, hoperand, ← hlegal.opcode, fields_append]

/-- Settles O32: a command is its opcode and its operand, and a word is its two fields. -/
theorem decodeAndEncodeAgree : Obligations.DecodeAndEncodeAgree :=
  ⟨decode_encode, fun _ _ => encode_of_decode⟩

/-- Settles O36: the ten words are evaluated. -/
theorem writtenWordsDecode : Obligations.WrittenWordsDecode := by
  unfold Obligations.WrittenWordsDecode
  decide

end Sys2Proof
end

section
/-! Printing and assembling (30_encoding.md R69, R74): the digits of a number are read back as the number, a printed line is cut into the
words it was printed from, and the word printed is the word assembled. -/

namespace Sys2Proof

/-! ### Numbers -/

theorem digitValue_digitChar {d : Nat} (h : d < 16) : digitValue (digitChar d) = some d := by
  revert d
  decide

theorem parseDigits_append (base acc : Nat) (l r : List Char) :
    parseDigits base acc (l ++ r) = (parseDigits base acc l).bind fun v => parseDigits base v r := by
  induction l generalizing acc with
  | nil => rfl
  | cons c cs ih =>
    simp only [List.cons_append, parseDigits]
    cases digitValue c with
    | none => rfl
    | some d =>
      by_cases hd : d < base
      · simp only [if_pos hd, ih]
      · simp only [if_neg hd, Option.bind_none]

theorem parseDigits_digit {base d : Nat} (acc : Nat) (hd : d < base) (hbase : base ≤ 16) :
    parseDigits base acc [digitChar d] = some (acc * base + d) := by
  have hvalue : digitValue (digitChar d) = some d := digitValue_digitChar (by omega)
  simp only [parseDigits, hvalue, if_pos hd]

theorem parseDigits_hexDigits (k : Nat) {n : Nat} (h : n < 16 ^ k) : parseDigits 16 0 (hexDigits k n) = some n := by
  induction k generalizing n with
  | zero =>
    obtain rfl : n = 0 := by simpa using h
    rfl
  | succ k ih =>
    have hhigh : n / 16 < 16 ^ k := by rw [pow_succ] at h; omega
    have hn : n / 16 * 16 + n % 16 = n := Nat.div_add_mod' n 16
    rw [hexDigits, parseDigits_append, ih hhigh, Option.bind_some, parseDigits_digit _ (by omega) le_rfl, hn]

theorem parseDigits_decimalText (k : Nat) {n : Nat} (h : n < 10 ^ (k + 1)) :
    parseDigits 10 0 (decimalText k n) = some n := by
  induction k generalizing n with
  | zero =>
    have hn : 0 * 10 + n % 10 = n := by omega
    rw [decimalText, parseDigits_digit _ (by omega) (by decide), hn]
  | succ k ih =>
    rw [decimalText]
    split
    · next hsmall => rw [parseDigits_digit _ hsmall (by decide), Nat.zero_mul, Nat.zero_add]
    · have hhigh : n / 10 < 10 ^ (k + 1) := by rw [pow_succ] at h; omega
      have hn : n / 10 * 10 + n % 10 = n := Nat.div_add_mod' n 10
      rw [parseDigits_append, ih hhigh, Option.bind_some, parseDigits_digit _ (by omega) (by decide), hn]

/-! ### The characters printed -/

/-- A character that neither separates words nor starts a comment (30_encoding.md R69). -/
abbrev Plain (c : Char) : Prop := c ≠ ' ' ∧ c ≠ ',' ∧ c ≠ ';'

theorem digitChar_plain {d : Nat} (h : d < 16) : Plain (digitChar d) ∧ digitChar d ≠ 'x' := by
  revert d
  decide

theorem hexDigits_plain (k n : Nat) : ∀ c ∈ hexDigits k n, Plain c := by
  induction k generalizing n with
  | zero => exact nofun
  | succ k ih =>
    intro c hc
    rcases List.mem_append.mp hc with hhigh | hlow
    · exact ih _ c hhigh
    · obtain rfl := List.mem_singleton.mp hlow
      exact (digitChar_plain (by omega)).1

theorem hexText_plain (k n : Nat) : ∀ c ∈ hexText k n, Plain c := by
  intro c hc
  rw [hexText, List.mem_cons, List.mem_cons] at hc
  rcases hc with rfl | rfl | hc
  · decide
  · decide
  · exact hexDigits_plain k n c hc

theorem decimalText_plain (k n : Nat) : ∀ c ∈ decimalText k n, Plain c ∧ c ≠ 'x' := by
  induction k generalizing n with
  | zero =>
    intro c hc
    obtain rfl := List.mem_singleton.mp hc
    exact digitChar_plain (by omega)
  | succ k ih =>
    intro c hc
    rw [decimalText] at hc
    split at hc
    · obtain rfl := List.mem_singleton.mp hc
      exact digitChar_plain (by omega)
    · rcases List.mem_append.mp hc with hhigh | hlow
      · exact ih _ c hhigh
      · obtain rfl := List.mem_singleton.mp hlow
        exact digitChar_plain (by omega)

theorem hexDigits_ne_nil {k : Nat} (hk : 0 < k) (n : Nat) : hexDigits k n ≠ [] := by
  cases k with
  | zero => omega
  | succ k => simp [hexDigits]

theorem decimalText_ne_nil (k n : Nat) : decimalText k n ≠ [] := by
  cases k with
  | zero => simp [decimalText]
  | succ k =>
    rw [decimalText]
    split <;> simp

theorem parseNumber_hexText {k n : Nat} (hk : 0 < k) (h : n < 16 ^ k) : parseNumber (hexText k n) = some n := by
  have hhex : parseNumber ('0' :: 'x' :: hexDigits k n) = parseDigits 16 0 (hexDigits k n) := by
    cases hds : hexDigits k n with
    | nil => exact absurd hds (hexDigits_ne_nil hk n)
    | cons d ds => rfl
  rw [hexText, hhex, parseDigits_hexDigits k h]

/-- Digits without an `x` are decimal (30_encoding.md R69). -/
theorem parseNumber_of_no_x {ds : List Char} (hne : ds ≠ []) (hx : ∀ c ∈ ds, c ≠ 'x') :
    parseNumber ds = parseDigits 10 0 ds := by
  unfold parseNumber
  split
  · exact absurd rfl hne
  · exact absurd rfl (hx 'x' (by simp))
  · exact absurd rfl (hx 'x' (by simp))
  · rfl

theorem parseNumber_decimalText {k n : Nat} (h : n < 10 ^ (k + 1)) : parseNumber (decimalText k n) = some n := by
  rw [parseNumber_of_no_x (decimalText_ne_nil k n) fun c hc => (decimalText_plain k n c hc).2,
    parseDigits_decimalText k h]

/-! ### The words of a line -/

/-- Plain characters extend the token being read. -/
theorem tokens_append {l : List Char} (hl : ∀ c ∈ l, Plain c) (current r : List Char) :
    tokens current (l ++ r) = tokens (current ++ l) r := by
  induction l generalizing current with
  | nil => simp
  | cons c cs ih =>
    obtain ⟨⟨hspace, hcomma, -⟩, hcs⟩ := List.forall_mem_cons.mp hl
    rw [List.cons_append, tokens, if_neg hspace, if_neg hcomma, ih hcs, List.append_assoc]
    rfl

/-- A mnemonic, a space and an operand are two words. -/
theorem tokens_operandLine {m v : List Char} (hm : ∀ c ∈ m, Plain c) (hv : ∀ c ∈ v, Plain c) (hm0 : m ≠ [])
    (hv0 : v ≠ []) : tokens [] (m ++ ' ' :: v) = [.name m, .name v] := by
  have hoperand : tokens [] v = [.name v] := by
    have h := tokens_append hv [] []
    rwa [List.append_nil, List.nil_append, tokens, flushToken, if_neg hv0] at h
  rw [tokens_append hm, List.nil_append, tokens, if_pos rfl, flushToken, if_neg hm0, hoperand]
  rfl

/-- A line that prints a mnemonic and an operand assembles as the source line that these two words make. -/
theorem assembleLine_operandLine {m v : List Char} {l : Line} (hm : ∀ c ∈ m, Plain c) (hv : ∀ c ∈ v, Plain c)
    (hm0 : m ≠ []) (hv0 : v ≠ []) (hl : parseCommand m [.name v] = some l) :
    assembleLine (m ++ ' ' :: v) = assemble l := by
  have hall : (m ++ ' ' :: v).takeWhile (fun c => c != ';') = m ++ ' ' :: v := by
    rw [List.takeWhile_eq_self_iff]
    intro c hc
    rw [bne_iff_ne]
    rcases List.mem_append.mp hc with hc | hc
    · exact (hm c hc).2.2
    · rcases List.mem_cons.mp hc with rfl | hc
      · decide
      · exact (hv c hc).2.2
  simp only [assembleLine, hall, tokens_operandLine hm hv hm0 hv0, hl]

/-- The same for an operand printed in hexadecimal. -/
theorem assembleLine_hexLine (m : List Char) (k : Nat) {n : Nat} {make : Nat → Line} (hm : ∀ c ∈ m, Plain c)
    (hm0 : m ≠ []) (hk : 0 < k) (hn : n < 16 ^ k) (hmake : ∀ ops, parseCommand m ops = (oneNumber ops).map make) :
    assembleLine (m ++ ' ' :: hexText k n) = assemble (make n) := by
  refine assembleLine_operandLine hm (hexText_plain k n) hm0 (by simp [hexText]) ?_
  rw [hmake, oneNumber, parseNumber_hexText hk hn, Option.map_some]

theorem assembleLine_decimalLine (m : List Char) (k : Nat) {n : Nat} {make : Nat → Line} (hm : ∀ c ∈ m, Plain c)
    (hm0 : m ≠ []) (hn : n < 10 ^ (k + 1)) (hmake : ∀ ops, parseCommand m ops = (oneNumber ops).map make) :
    assembleLine (m ++ ' ' :: decimalText k n) = assemble (make n) := by
  refine assembleLine_operandLine hm (fun c hc => (decimalText_plain k n c hc).1) hm0 (decimalText_ne_nil k n) ?_
  rw [hmake, oneNumber, parseNumber_decimalText hn, Option.map_some]

/-! ### The source line of a number that is in range -/

theorem assemble_addw_toNat (v : Half) : assemble (.addw v.toNat) = some [encode (.addw v)] := by
  have hv : v.toNat ≤ 0xFFFF := Nat.le_of_lt_succ v.isLt
  rw [assemble_of_wellFormed (by simp [Line.wellFormed, hv]), Line.words, BitVec.ofNat_toNat, BitVec.setWidth_eq]

theorem assemble_addt_toNat (b : Byte) : assemble (.addt b.toNat) = some [encode (.addt b)] := by
  have hb : b.toNat ≤ 0xFF := Nat.le_of_lt_succ b.isLt
  rw [assemble_of_wellFormed (by simp [Line.wellFormed, hb]), Line.words, BitVec.ofNat_toNat, BitVec.setWidth_eq]

theorem assemble_run_toNat (n : Length) : assemble (.run n.toNat) = some [encode (.run n)] := by
  have hn : n.toNat ≤ 0xFFFFFF := Nat.le_of_lt_succ n.isLt
  rw [assemble_of_wellFormed (by simp [Line.wellFormed, hn]), Line.words, BitVec.ofNat_toNat, BitVec.setWidth_eq]

theorem assemble_word_toNat (w : Word) : assemble (.word w.toNat) = some [w] := by
  have hw : w.toNat ≤ 0xFFFFFFFF := Nat.le_of_lt_succ w.isLt
  rw [assemble_of_wellFormed (by simp [Line.wellFormed, hw]), Line.words, BitVec.ofNat_toNat, BitVec.setWidth_eq]

/-! ### The round trip -/

/-- The text of a command assembles to its word (30_encoding.md R74). -/
theorem assembleLine_text (i : Instr) : assembleLine i.text = some [encode i] := by
  cases i with
  | clr => decide
  | addw v =>
    have hline := assembleLine_hexLine ['A', 'D', 'D', 'W'] 4 (make := .addw) (by simp [Plain]) (by simp) (by decide)
      v.isLt fun _ => rfl
    exact hline.trans (assemble_addw_toNat v)
  | addt b =>
    have hline := assembleLine_hexLine ['A', 'D', 'D', 'T'] 2 (make := .addt) (by simp [Plain]) (by simp) (by decide)
      b.isLt fun _ => rfl
    exact hline.trans (assemble_addt_toNat b)
  | fold => decide
  | fin => decide
  | run n =>
    have hn : n.toNat < 10 ^ (7 + 1) := lt_trans n.isLt (by decide)
    have hline := assembleLine_decimalLine ['R', 'U', 'N'] 7 (make := .run) (by simp [Plain]) (by simp) hn
      fun _ => rfl
    exact hline.trans (assemble_run_toNat n)
  | rdr r => cases r <;> decide

/-- Settles O39: a legal word prints as its command, an illegal one as `.word` with its eight digits. -/
theorem printedTextAssemblesBack : Obligations.PrintedTextAssemblesBack := by
  intro w
  cases hw : decode w with
  | legal i => rw [disassemble, hw, assembleLine_text, encode_of_decode hw]
  | illegal why =>
    rw [disassemble, hw]
    have hline := assembleLine_hexLine ['.', 'w', 'o', 'r', 'd'] 8 (make := .word) (by simp [Plain]) (by simp) (by decide)
      w.isLt fun _ => rfl
    exact hline.trans (assemble_word_toNat w)

end Sys2Proof
end

section
/-! The response of a command by its code (30_encoding.md R67, R68, 60_exceptions.md R131, R133): success, a refusal by the latch, or the
fault just latched; and what follows for the latch and for the first command after reset. -/

namespace Sys2Proof.Machine

/-- From `s` to `t` a command sent the response `r`, and this is what `r` says of the latch. -/
inductive Answer (s t : State) : Response → Prop
  /-- A success latches nothing. -/
  | success (d : Word) (herr : t.err = s.err ∨ t.err = 0) : Answer s t ⟨0, d⟩
  /-- A refusal answers the latched code (60_exceptions.md R133). -/
  | refused (herr : t.err = s.err) (hlatched : s.err ≠ 0) : Answer s t ⟨s.err, 0⟩
  /-- A raised fault is latched and answered (60_exceptions.md R131). -/
  | raised (f : FaultCode) (herr : t.err = f.code) : Answer s t ⟨f.code, 0⟩

theorem FaultCode.code_le_three (f : FaultCode) : f.code ≤ 3 := by cases f <;> decide

theorem FaultCode.one_le_code (f : FaultCode) : 1 ≤ f.code := by cases f <;> decide

theorem success_lawful (d : Word) : (⟨codeOk, d⟩ : Response).lawful :=
  ⟨show codeOk ≤ 4 by decide, fun hne => absurd rfl hne⟩

/-- Every answer is lawful when the latch holds a fault code (30_encoding.md R67, R68). -/
theorem Answer.lawful {s t : State} {r : Response} (hs : s.err ≤ 3) (h : Answer s t r) : r.lawful := by
  have hcode : ∀ c : Code, c ≤ 3 → c ≤ 4 := by decide
  cases h with
  | success d _ => exact success_lawful d
  | refused _ _ => exact ⟨hcode _ hs, fun _ => rfl⟩
  | raised f _ => exact ⟨hcode _ f.code_le_three, fun _ => rfl⟩

theorem unlessLatched_answer {effect : State → State} {s : State}
    (h : ∃ r, (effect s).sent = s.sent ++ [r] ∧ Answer s (effect s) r) :
    ∃ r, (unlessLatched effect s).sent = s.sent ++ [r] ∧ Answer s (unlessLatched effect s) r := by
  by_cases hl : s.err = 0
  · rwa [unlessLatched_of_clear hl]
  · rw [unlessLatched_of_latched hl]
    exact ⟨_, respond_sent .., .refused (respond_err ..) hl⟩

theorem addAndRespond_answer (w : Word) (s : State) :
    ∃ r, (addAndRespond w s).sent = s.sent ++ [r] ∧ Answer s (addAndRespond w s) r := by
  rw [addAndRespond]
  cases checkedAdd s.acc w with
  | none => exact ⟨_, raise_sent .., .raised .accOverflow (raise_err ..)⟩
  | some acc => exact ⟨_, respond_sent .., .success 0 (.inl rfl)⟩

/-- `RUN` tests no latch: it succeeds with the latch clear, or raises a fault (42_run.md R102, R105 to R107). -/
theorem exec_run_answer (n : Length) (s : State) :
    ∃ t, exec (.run n) s = .next t ∧
      ((∃ d, t.sent = s.sent ++ [⟨0, d⟩] ∧ t.err = 0) ∨
        ∃ f : FaultCode, t.sent = s.sent ++ [⟨f.code, 0⟩] ∧ t.err = f.code) := by
  rcases exec_run_cases n s with ⟨-, ht⟩ | ⟨k, -, -, ⟨-, ht⟩ | ⟨-, -, ht⟩⟩ | ⟨-, -, ht⟩
  · exact ⟨_, ht, .inr ⟨.zeroLength, raise_sent .., raise_err ..⟩⟩
  · exact ⟨_, ht, .inr ⟨.outOfBounds, stopRun_sent .., stopRun_err ..⟩⟩
  · exact ⟨_, ht, .inr ⟨.accOverflow, stopRun_sent .., stopRun_err ..⟩⟩
  · exact ⟨_, ht, .inl ⟨_, finishAndRespond_sent _, rfl⟩⟩

theorem exec_answer (i : Instr) (s : State) :
    ∃ t r, exec i s = .next t ∧ t.sent = s.sent ++ [r] ∧ Answer s t r := by
  have hunless {effect : State → State} (h : ∃ r, (effect s).sent = s.sent ++ [r] ∧ Answer s (effect s) r) :
      ∃ t r, (.next (unlessLatched effect s) : Host.Outcome State Fault Refusal) = .next t ∧
        t.sent = s.sent ++ [r] ∧ Answer s t r :=
    have ⟨r, hr⟩ := unlessLatched_answer h
    ⟨_, r, rfl, hr⟩
  cases i with
  | clr => exact ⟨_, _, exec_clr s, rfl, .success 0 (.inr rfl)⟩
  | addw v => exact hunless (addAndRespond_answer _ s)
  | addt b => exact hunless (addAndRespond_answer _ s)
  | fold => exact hunless ⟨_, foldAndRespond_sent s, .success _ (.inl rfl)⟩
  | fin => exact hunless ⟨_, finishAndRespond_sent s, .success _ (.inl rfl)⟩
  | run n =>
    obtain ⟨t, ht, ⟨d, hsent, herr⟩ | ⟨f, hsent, herr⟩⟩ := exec_run_answer n s
    · exact ⟨t, _, ht, hsent, .success d (.inr herr)⟩
    · exact ⟨t, _, ht, hsent, .raised f herr⟩
  | rdr r => exact ⟨_, _, exec_rdr r s, rfl, .success _ (.inl rfl)⟩

/-- Settles O5: the reset state has a clear latch, so every answer is lawful; `FIN` finds `ACC` zero. -/
theorem anyCommandMayComeFirst : Obligations.AnyCommandMayComeFirst := by
  refine ⟨fun i => ?_, ?_⟩
  · obtain ⟨t, r, ht, hsent, hr⟩ := exec_answer i State.reset
    exact ⟨t, r, ht, hsent, hr.lawful (by decide)⟩
  · rw [exec_fin, unlessLatched_of_clear rfl, finishAndRespond_of_acc_zero rfl]
    rfl

/-- A code newly written, or left by `RUN`, is a fault's and is answered (60_exceptions.md R131). -/
theorem exec_latches (i : Instr) (s : State) :
    ∃ t, exec i s = .next t ∧
      (t.err ≠ 0 → t.err ≠ s.err ∨ (∃ n, i = .run n) →
        ∃ f : FaultCode, t.err = f.code ∧ t.sent = s.sent ++ [⟨f.code, 0⟩]) := by
  rcases isRun_or_not i with ⟨n, rfl⟩ | hi
  · obtain ⟨t, ht, ⟨-, -, herr⟩ | ⟨f, hsent, herr⟩⟩ := exec_run_answer n s
    · exact ⟨t, ht, fun hne => absurd herr hne⟩
    · exact ⟨t, ht, fun _ _ => ⟨f, herr, hsent⟩⟩
  · obtain ⟨t, r, ht, hsent, hr⟩ := exec_answer i s
    refine ⟨t, ht, fun hne hnew => ?_⟩
    have hchanged : t.err ≠ s.err := hnew.resolve_right fun ⟨n, hn⟩ => hi n hn
    cases hr with
    | success d herr => exact absurd (herr.resolve_left hchanged) hne
    | refused herr _ => exact absurd herr hchanged
    | raised f herr => exact ⟨f, herr, hsent⟩

/-- Settles O41: `RUN` aside, the commands that write the latch are known; what they write is a fault's code. -/
theorem latchChangesByItsRulesOnly : Obligations.LatchChangesByItsRulesOnly := by
  intro i s
  obtain ⟨t, ht, hlatch⟩ := exec_latches i s
  refine ⟨t, ht, ?_, fun hne hnew => ?_⟩
  · rcases isRun_or_not i with hrun | hi
    · exact .inr (.inr (.inl hrun))
    · obtain ⟨u, hu, herr⟩ := exec_err_cases hi s
      obtain rfl := Host.Outcome.next.inj (ht.symm.trans hu)
      rcases herr with hsame | hclr | hadd
      · exact .inl hsame
      · exact .inr (.inl hclr)
      · exact .inr (.inr (.inr hadd))
  · obtain ⟨f, herr, hsent⟩ := hlatch hne hnew
    rw [herr]
    exact ⟨f.one_le_code, f.code_le_three, hsent⟩

end Sys2Proof.Machine
end

section
/-! The invariant of the machine (10_state.md R23, R25; 60_exceptions.md R134, R135; log 5): each operation keeps it, so each command, each
input and each step does. -/

namespace Sys2Proof.Machine

/-- One more response that is lawful. -/
theorem sent_append_lawful {l : List Response} {r : Response} (hl : ∀ q ∈ l, q.lawful) (hr : r.lawful) :
    ∀ q ∈ l ++ [r], q.lawful := by
  intro q hq
  rcases List.mem_append.mp hq with hq | hq
  · exact hl q hq
  · exact List.mem_singleton.mp hq ▸ hr

/-- The registers zero: after reset and after `CLR` (10_state.md R31). -/
theorem inv_of_regs_zero {t : State} (hregs : t.regs = ⟨0, 0, 0, 0⟩) (hbuf : t.buf.wf = true)
    (hsent : ∀ r ∈ t.sent, r.lawful) : t.Inv := by
  have herr : t.err = 0 := congrArg Regs.err hregs
  have hlen : t.len = 0 := congrArg Regs.len hregs
  have hidx : t.idx = 0 := congrArg Regs.idx hregs
  refine ⟨by rw [herr]; decide, by rw [hidx, hlen]; decide, .inr (hidx.trans hlen.symm), fun h => ?_, fun h => ?_, hbuf,
    hsent⟩
  · exact absurd (herr.symm.trans h) (by decide)
  · exact absurd (herr.symm.trans h) (by decide)

/-- Settles O56: the registers are zero and nothing was sent. -/
theorem resetMeetsTheInvariant : Obligations.ResetMeetsTheInvariant := inv_of_regs_zero reset_regs reset_buf_wf nofun

/-- `ERR`, `LEN` and `IDX` kept, and `ACC` too while ZeroLength is latched: what the invariant says of the registers stands. -/
theorem State.Inv.of_kept {s t : State} (h : s.Inv) (hacc : s.err = 1 → t.acc = s.acc) (herr : t.err = s.err)
    (hlen : t.len = s.len) (hidx : t.idx = s.idx) (hbuf : t.buf.wf = true) (hsent : ∀ r ∈ t.sent, r.lawful) : t.Inv where
  errCode := herr ▸ h.errCode
  idxAtMostLen := by rw [hidx, hlen]; exact h.idxAtMostLen
  idxEven := by rw [hidx, hlen]; exact h.idxEven
  zeroLengthRecord h1 := by
    rw [herr] at h1
    rw [← h.zeroLengthRecord h1]
    simp only [State.regs, hacc h1, herr, hlen, hidx]
  outOfBoundsRecord h2 := by rw [hidx, hlen]; exact h.outOfBoundsRecord (herr ▸ h2)
  bufCanonical := hbuf
  sentLawful := hsent

theorem State.Inv.respond {s : State} (h : s.Inv) {c : Code} {d : Word} (hr : (⟨c, d⟩ : Response).lawful) :
    (respond c d s).Inv :=
  h.of_kept (fun _ => rfl) rfl rfl rfl h.bufCanonical (sent_append_lawful h.sentLawful hr)

theorem State.Inv.setAcc {s : State} (h : s.Inv) (hclear : s.err = 0) (a : Word) : ({ s with acc := a } : State).Inv :=
  h.of_kept (fun h1 => absurd (hclear.symm.trans h1) (by decide)) rfl rfl rfl h.bufCanonical h.sentLawful

theorem State.Inv.setBuf {s : State} (h : s.Inv) {m : Memory} (hm : m.wf = true) : ({ s with buf := m } : State).Inv :=
  h.of_kept (fun _ => rfl) rfl rfl rfl hm h.sentLawful

theorem State.Inv.takeInput {s : State} (h : s.Inv) (rest : List Input) : ({ s with inputs := rest } : State).Inv :=
  h.of_kept (fun _ => rfl) rfl rfl rfl h.bufCanonical h.sentLawful

theorem State.Inv.setReads {s : State} (h : s.Inv) (l : List Nat) : ({ s with reads := l } : State).Inv :=
  h.of_kept (fun _ => rfl) rfl rfl rfl h.bufCanonical h.sentLawful

/-- A raised fault whose record is what 60_exceptions.md R134 and R135 ask for. -/
theorem State.Inv.raise {s : State} (h : s.Inv) (f : FaultCode) (hzero : f = .zeroLength → s.regs = ⟨0, 0, 0, 0⟩)
    (hbounds : f = .outOfBounds → s.idx < s.len ∧ s.idx.toNat % 2 = 0) : (raise f s).Inv where
  errCode := f.code_le_three
  idxAtMostLen := h.idxAtMostLen
  idxEven := h.idxEven
  zeroLengthRecord h1 := by
    have hf : f = .zeroLength := by revert h1; cases f <;> simp [FaultCode.code]
    have hregs : (Machine.raise f s).regs = { s.regs with err := f.code } := rfl
    rw [hregs, hzero hf, hf]
    rfl
  outOfBoundsRecord h2 := hbounds (by revert h2; cases f <;> simp [FaultCode.code])
  bufCanonical := h.bufCanonical
  sentLawful := by
    refine sent_append_lawful h.sentLawful ⟨?_, fun _ => rfl⟩
    cases f <;> decide

theorem State.Inv.unlessLatched {effect : State → State} {s : State} (h : s.Inv)
    (heffect : s.err = 0 → (effect s).Inv) : (unlessLatched effect s).Inv := by
  by_cases hclear : s.err = 0
  · rw [unlessLatched_of_clear hclear]
    exact heffect hclear
  · rw [unlessLatched_of_latched hclear]
    exact h.respond (Answer.lawful h.errCode (.refused (t := s) rfl hclear))

theorem State.Inv.addAndRespond {s : State} (h : s.Inv) (hclear : s.err = 0) (w : Word) : (addAndRespond w s).Inv := by
  rw [Machine.addAndRespond]
  cases checkedAdd s.acc w with
  | none => exact h.raise .accOverflow nofun nofun
  | some acc => exact (h.setAcc hclear acc).respond (success_lawful 0)

/-- `ACC` folded and a success answered. -/
theorem State.Inv.foldThenRespond {s : State} (h : s.Inv) (hclear : s.err = 0) (d : Word) :
    (Machine.respond codeOk d (foldInPlace s)).Inv :=
  (h.setAcc hclear _).respond (success_lawful d)

/-- Inside `RUN`, between two words or at the end (10_state.md R25). -/
theorem State.Inv.midRun {s : State} (h : s.Inv) {n : Length} {j : Nat} (hj : j ≤ n.toNat)
    (hword : j % 2 = 0 ∨ j = n.toNat) : (midRun s n j).Inv where
  errCode := by rw [midRun_err]; decide
  idxAtMostLen := by rwa [BitVec.le_def, midRun_idx_toNat hj]
  idxEven := hword.imp (by rw [midRun_idx_toNat hj]; exact id)
    fun hend => BitVec.eq_of_toNat_eq ((midRun_idx_toNat hj).trans hend)
  zeroLengthRecord h1 := absurd ((midRun_err s n j).symm.trans h1) (by decide)
  outOfBoundsRecord h2 := absurd ((midRun_err s n j).symm.trans h2) (by decide)
  bufCanonical := h.bufCanonical
  sentLawful := h.sentLawful

theorem State.Inv.stopRun {s : State} (h : s.Inv) {n : Length} {k : Nat} (hk : 2 * k < n.toNat) {f : FaultCode}
    (hf : f ≠ .zeroLength) : (stopRun s n k f).Inv := by
  have hidx : (Machine.midRun s n (2 * k)).idx.toNat = 2 * k := midRun_idx_toNat hk.le
  have hmid : (Machine.midRun s n (2 * k)).Inv := h.midRun hk.le (.inl (by omega))
  rw [Machine.stopRun]
  refine (hmid.setReads _).raise f (fun hz => absurd hz hf) fun _ => ⟨?_, ?_⟩
  · exact BitVec.lt_def.mpr (hidx.trans_lt hk)
  · exact (congrArg (· % 2) hidx).trans (by omega)

theorem exec_run_inv {s : State} (h : s.Inv) (n : Length) : ∃ t, exec (.run n) s = .next t ∧ t.Inv := by
  rcases exec_run_cases n s with ⟨rfl, ht⟩ | ⟨k, hk, -, ⟨-, ht⟩ | ⟨-, -, ht⟩⟩ | ⟨-, -, ht⟩
  · have hstart : (runStart 0 s).Inv := inv_of_regs_zero rfl h.bufCanonical h.sentLawful
    exact ⟨_, ht, hstart.raise .zeroLength (fun _ => rfl) nofun⟩
  · exact ⟨_, ht, h.stopRun hk nofun⟩
  · exact ⟨_, ht, h.stopRun hk nofun⟩
  · exact ⟨_, ht, (h.midRun le_rfl (.inr rfl)).foldThenRespond rfl _⟩

theorem exec_inv {s : State} (h : s.Inv) (i : Instr) : ∃ t, exec i s = .next t ∧ t.Inv := by
  cases i with
  | clr =>
    have hclear : (clearRegs s).Inv := inv_of_regs_zero (clearRegs_regs s) h.bufCanonical h.sentLawful
    exact ⟨_, exec_clr s, hclear.respond (success_lawful 0)⟩
  | addw v => exact ⟨_, exec_addw v s, h.unlessLatched fun hclear => h.addAndRespond hclear _⟩
  | addt b => exact ⟨_, exec_addt b s, h.unlessLatched fun hclear => h.addAndRespond hclear _⟩
  | fold => exact ⟨_, exec_fold s, h.unlessLatched fun hclear => h.foldThenRespond hclear _⟩
  | fin => exact ⟨_, exec_fin s, h.unlessLatched fun hclear => h.foldThenRespond hclear _⟩
  | run n => exact exec_run_inv h n
  | rdr r => exact ⟨_, rfl, h.respond (success_lawful _)⟩

theorem acceptCommand_inv {s t : State} (h : s.Inv) {w : Word} (ht : acceptCommand w s = .next t) : t.Inv := by
  cases hw : decode w with
  | legal i =>
    obtain ⟨u, hu, hinv⟩ := exec_inv h i
    rw [acceptCommand_of_legal hw, hu] at ht
    exact Host.Outcome.next.inj ht ▸ hinv
  | illegal why =>
    rw [acceptCommand_of_illegal hw] at ht
    exact Host.Outcome.next.inj ht ▸ h.respond (by decide)

/-- Whatever stood in BUF during a command, it ends with a canonical buffer. -/
theorem getLastD_ofBytes_wf {m : Memory} (hm : m.wf = true) (bound : List (List Byte)) :
    ((bound.map Memory.ofBytes).getLastD m).wf = true := by
  rcases List.mem_cons.mp (List.getLastD_mem_cons (l := bound.map Memory.ofBytes) (a := m)) with hlast | hlast
  · rwa [hlast]
  · obtain ⟨bytes, -, hbytes⟩ := List.mem_map.mp hlast
    exact hbytes ▸ Memory.ofBytes_wf bytes

theorem acceptInput_inv {s t : State} (h : s.Inv) {i : Input} (ht : acceptInput i s = .next t) : t.Inv := by
  cases i with
  | command w => exact acceptCommand_inv h ht
  | reset => exact Host.Outcome.next.inj ht ▸ inv_of_regs_zero (clearRegs_regs s) h.bufCanonical h.sentLawful
  | resetDuring w made => exact Host.Outcome.next.inj ht ▸ inv_of_regs_zero rfl h.bufCanonical h.sentLawful
  | bind bytes => exact Host.Outcome.next.inj ht ▸ h.setBuf (Memory.ofBytes_wf bytes)
  | poke index value => exact Host.Outcome.next.inj ht ▸ h.setBuf (Memory.write_wf h.bufCanonical index value)
  | commandRebound w bound =>
    rcases acceptRebound_cases w (bound.map Memory.ofBytes) s with ⟨-, u, hu, hr⟩ | ⟨-, hr⟩
    · have hbuf := getLastD_ofBytes_wf h.bufCanonical bound
      exact Host.Outcome.next.inj (hr.symm.trans ht) ▸ (acceptCommand_inv h hu).setBuf hbuf
    · exact absurd (hr.symm.trans ht) nofun
  | commandUnanswered w answered =>
    rw [acceptInput, acceptUnanswered] at ht
    split at ht
    · exact absurd ht nofun
    · exact acceptCommand_inv h ht

/-- Settles O55: an idle step changes nothing, and every input keeps the invariant of the state it is taken in. -/
theorem stepKeepsTheInvariant : Obligations.StepKeepsTheInvariant := by
  intro s t h ht
  rcases step_next_cases ht with ⟨-, rfl⟩ | ⟨i, rest, -, hi⟩
  · exact h
  · exact acceptInput_inv (h.takeInput rest) hi

end Sys2Proof.Machine
end

section
/-! Steps (30_encoding.md R72, 70_reset_and_hazards.md R161, R169, 20_memory.md R50): what a step does with each input that carries a command
word, and that kept premises never stop the machine. -/

namespace Sys2Proof.Machine

/-- Settles O52: with no input there is nothing to take. -/
theorem idleHoldsTheState : Obligations.IdleHoldsTheState := fun _ => step_of_idle

theorem step_of_command {s : State} {w : Word} {rest : List Input} (h : s.inputs = .command w :: rest) :
    step s = acceptCommand w { s with inputs := rest } := step_of_input h

theorem decode_of_decodeTableWord {nbits w : Nat} {i : Instr} (h : decodeTableWord nbits w = some i) :
    decode (tableWord nbits w) = .legal i := by
  rw [decodeTableWord] at h
  cases hd : decode (tableWord nbits w) with
  | legal j =>
    rw [hd] at h
    exact congrArg _ (Option.some.inj h)
  | illegal why =>
    rw [hd] at h
    exact absurd h nofun

/-- Settles O51: the word is taken from the port and decoded; `withFetchWord` puts one there. -/
theorem stepRunsTheDecodedCommand : Obligations.StepRunsTheDecodedCommand := by
  refine ⟨fun s w i rest hin hw => ?_, fun s nbits w i hw => ?_⟩
  · rw [step_of_command hin, acceptCommand_of_legal hw]
  · rw [State.withFetchWord, step_of_command (offerCommand_inputs _ s)]
    exact acceptCommand_of_legal (decode_of_decodeTableWord hw) s

theorem acceptCommand_answer (w : Word) {s : State} (hs : s.err ≤ 3) :
    ∃ t r, acceptCommand w s = .next t ∧ t.sent = s.sent ++ [r] ∧ r.lawful := by
  cases hw : decode w with
  | legal i =>
    obtain ⟨t, r, ht, hsent, hr⟩ := exec_answer i s
    exact ⟨t, r, by rw [acceptCommand_of_legal hw, ht], hsent, hr.lawful hs⟩
  | illegal why => exact ⟨_, _, acceptCommand_of_illegal hw s, respond_sent .., by decide⟩

/-- A command word changes neither BUF nor what waits at the ports, and only adds to the record of reads. -/
theorem acceptCommand_ports (w : Word) (s : State) :
    ∃ t, acceptCommand w s = .next t ∧ t.buf = s.buf ∧ t.inputs = s.inputs ∧ t.reads = s.reads ++ issuedReads w s := by
  cases hw : decode w with
  | legal i =>
    obtain ⟨t, ht, hbuf, hinputs⟩ := exec_buf_inputs i s
    obtain ⟨u, k, hu, hreads, -⟩ := readsAscendFromZero i s
    obtain rfl := Host.Outcome.next.inj (ht.symm.trans hu)
    have haccept : acceptCommand w s = .next t := by rw [acceptCommand_of_legal hw, ht]
    exact ⟨t, haccept, hbuf, hinputs, by rw [issuedReads_of_next haccept hreads, hreads]⟩
  | illegal why =>
    have haccept := acceptCommand_of_illegal hw s
    have hreads : (respond codeIllegal 0 s).reads = s.reads ++ [] := by rw [respond_reads, List.append_nil]
    exact ⟨_, haccept, respond_buf .., respond_inputs .., by rw [issuedReads_of_next haccept hreads, hreads]⟩

/-- Settles O44: a legal word answers as its command, an illegal one with code 4. -/
theorem everyCommandIsAnsweredOnce : Obligations.EveryCommandIsAnsweredOnce := by
  intro s w rest hs hin
  obtain ⟨t, r, ht, hsent, hr⟩ := acceptCommand_answer w (s := { s with inputs := rest }) hs
  obtain ⟨u, hu, -, hinputs, -⟩ := acceptCommand_ports w { s with inputs := rest }
  obtain rfl := Host.Outcome.next.inj (ht.symm.trans hu)
  exact ⟨t, r, (step_of_command hin).trans ht, hinputs, hsent, hr⟩

/-- Settles O4: the reads kept are the first ones that the unabandoned command issues. -/
theorem resetAbandonsTheCommand : Obligations.ResetAbandonsTheCommand := by
  intro s w made rest hin
  obtain ⟨t, ht, -, -, hreads⟩ := acceptCommand_ports w { s with inputs := rest }
  exact ⟨t, _, (step_of_command rfl).trans ht, hreads, step_of_input hin⟩

/-! ### Unanswered reads (93_implementation_defined.md U4, log 8) -/

theorem acceptUnanswered_of_lt {w : Word} {answered : Nat} {s : State} (h : answered < (issuedReads w s).length) :
    acceptUnanswered w answered s = .fault .readNeverAnswered := if_pos h

theorem acceptUnanswered_of_le {w : Word} {answered : Nat} {s : State} (h : (issuedReads w s).length ≤ answered) :
    acceptUnanswered w answered s = acceptCommand w s := if_neg (Nat.not_lt.mpr h)

/-- Settles O54: the reads compared with the answered ones are those that the answered command issues. -/
theorem unansweredReadStops : Obligations.UnansweredReadStops := by
  intro s w answered rest hin
  obtain ⟨t, ht, -, -, hreads⟩ := acceptCommand_ports w { s with inputs := rest }
  refine ⟨t, _, (step_of_command rfl).trans ht, hreads, fun hlt => ?_, fun hle => ?_⟩
  · exact (step_of_input hin).trans (acceptUnanswered_of_lt hlt)
  · exact ((step_of_input hin).trans (acceptUnanswered_of_le hle)).trans ht

/-! ### A buffer rebound during a command (93_implementation_defined.md U3, log 7) -/

theorem Memory.ofBytes_read (bytes : List Byte) (i : Nat) : (Memory.ofBytes bytes).read i = bytes[i]? := by
  rw [← Memory.bytes_getElem?, Memory.ofBytes_bytes]

theorem Memory.sameFor_ofBytes_iff (n : Length) (m : Memory) (bytes : List Byte) :
    Memory.sameFor n m (Memory.ofBytes bytes) = true ↔
      m.avail = bytes.length ∧ ∀ i < min n.toNat m.avail, m.read i = bytes[i]? := by
  simp [Memory.sameFor, Memory.ofBytes_read]

/-- The premise of 20_memory.md R50 asks something of a `RUN` alone. -/
theorem keepsPremise_iff (w : Word) (m : Memory) (bound : List (List Byte)) :
    keepsPremise w m (bound.map Memory.ofBytes) = true ↔
      ∀ (n : Length) (bytes : List Byte), decode w = .legal (.run n) → bytes ∈ bound →
        m.avail = bytes.length ∧ ∀ i < min n.toNat m.avail, m.read i = bytes[i]? := by
  unfold keepsPremise
  split
  · next n hw =>
    simp only [List.all_map, List.all_eq_true, Function.comp_apply, Memory.sameFor_ofBytes_iff, hw]
    refine ⟨fun h _ bytes hn => ?_, fun h bytes => h n bytes rfl⟩
    obtain rfl := Instr.run.inj (Decoded.legal.inj hn)
    exact h bytes
  · next i hnot hw => exact iff_of_true rfl fun n _ hn => absurd (Decoded.legal.inj (hw.symm.trans hn)) (hnot n)
  · next why hw => exact iff_of_true rfl fun n _ hn => absurd (hw.symm.trans hn) nofun

/-- Settles O53: the step is refused exactly when the premise fails, and otherwise differs from the usual one in BUF alone. -/
theorem bufferChangeDuringRunIsRefused : Obligations.BufferChangeDuringRunIsRefused := by
  intro s w bound rest hin
  have hpremise := keepsPremise_iff w s.buf bound
  have hstep : step s = acceptRebound w (bound.map Memory.ofBytes) { s with inputs := rest } := step_of_input hin
  rcases acceptRebound_cases w (bound.map Memory.ofBytes) { s with inputs := rest } with
    ⟨hkept, t, ht, hr⟩ | ⟨hbroken, hr⟩
  · obtain ⟨u, hu, hbuf, -, -⟩ := acceptCommand_ports w { s with inputs := rest }
    obtain rfl := Host.Outcome.next.inj (ht.symm.trans hu)
    refine ⟨fun ⟨n, bytes, hw, hmem, hdiffers⟩ => absurd (hpremise.mp hkept n bytes hw hmem) hdiffers, fun _ =>
      ⟨t, (step_of_command rfl).trans ht, fun hnone => ?_, fun bytes hlast => ?_⟩⟩
    · rw [hstep, hr, hnone, List.map_nil, List.getLastD_nil, ← hbuf]
    · rw [hstep, hr, List.getLastD_eq_getLast?, List.getLast?_map, hlast]
      rfl
  · refine ⟨fun _ => hstep.trans hr, fun hkept => absurd (hpremise.mpr hkept) ?_⟩
    rw [hbroken]
    exact Bool.false_ne_true

/-! ### Kept premises -/

/-- An input that keeps the environment's premises stops nothing, and nothing else is taken from the port. -/
theorem acceptInput_of_keepsPremises {i : Input} {s : State} (h : i.keepsPremises s = true) :
    ∃ t, acceptInput i s = .next t ∧ t.inputs = s.inputs := by
  cases i with
  | command w =>
    obtain ⟨t, ht, -, hinputs, -⟩ := acceptCommand_ports w s
    exact ⟨t, ht, hinputs⟩
  | reset => exact ⟨_, rfl, rfl⟩
  | resetDuring w made => exact ⟨_, rfl, rfl⟩
  | bind bytes => exact ⟨_, rfl, rfl⟩
  | poke index value => exact ⟨_, rfl, rfl⟩
  | commandRebound w bound =>
    rcases acceptRebound_cases w (bound.map Memory.ofBytes) s with ⟨-, t, ht, hr⟩ | ⟨hbroken, -⟩
    · obtain ⟨u, hu, -, hinputs, -⟩ := acceptCommand_ports w s
      obtain rfl := Host.Outcome.next.inj (ht.symm.trans hu)
      exact ⟨_, hr, hinputs⟩
    · exact absurd (h.symm.trans hbroken) nofun
  | commandUnanswered w answered =>
    obtain ⟨t, ht, -, hinputs, -⟩ := acceptCommand_ports w s
    exact ⟨t, (acceptUnanswered_of_le (of_decide_eq_true h)).trans ht, hinputs⟩

/-- A step whose input, if there is one, keeps its premises takes that input. -/
theorem step_of_keepsPremises {s : State}
    (h : ∀ i rest, s.inputs = i :: rest → i.keepsPremises { s with inputs := rest } = true) :
    ∃ t, step s = .next t ∧ t.inputs = s.inputs.drop 1 := by
  cases hin : s.inputs with
  | nil => exact ⟨s, step_of_idle hin, by rw [hin, List.drop_nil]⟩
  | cons i rest =>
    obtain ⟨t, ht, hinputs⟩ := acceptInput_of_keepsPremises (h i rest hin)
    exact ⟨t, (step_of_input hin).trans ht, hinputs⟩

/-- Settles O45, by induction on the steps: each takes the oldest input, or idles. -/
theorem keptPremisesNeverStop : Obligations.KeptPremisesNeverStop := by
  intro k
  induction k with
  | zero => exact fun s _ => ⟨s, rfl, rfl⟩
  | succ k ih =>
    intro s hkept
    obtain ⟨t, ht, hinputs⟩ := step_of_keepsPremises fun i rest => hkept 0 s i rest (Nat.zero_lt_succ k) rfl
    obtain ⟨u, hu, hrest⟩ := ih t fun j v i rest hj hv => hkept (j + 1) v i rest (by omega) ((run_of_next j ht).trans hv)
    refine ⟨u, (run_of_next k ht).trans hu, ?_⟩
    rw [hrest, hinputs, List.drop_drop, Nat.add_comm]

end Sys2Proof.Machine
end

section
/-! BUF as the environment makes it (20_memory.md R41, R50; log 5, log 6): what a bound buffer, an equal buffer and a written buffer read
as. -/

namespace Sys2Proof.Machine

theorem Memory.read_eq_none_iff (m : Memory) (i : Nat) : m.read i = none ↔ m.avail ≤ i := by
  refine ⟨fun h => Nat.le_of_not_lt fun hlt => ?_, Memory.read_eq_none⟩
  rw [Memory.read_eq_some hlt] at h
  exact absurd h nofun

/-- Settles O47: a byte list and the buffer made of it have the same entry at every index. -/
theorem boundBytesReadBack : Obligations.BoundBytesReadBack :=
  ⟨fun m i => ⟨m.read_eq_none_iff i, m.bytes_getElem? i⟩,
    fun bytes i => ⟨Memory.ofBytes_avail bytes, Memory.ofBytes_read bytes i⟩, fun _ _ _ hin => step_of_input hin⟩

/-! ### The canonical form is unique (log 5) -/

theorem Memory.lookup_cons_self (i : Nat) (b : Byte) (rest : List Host.Cell) :
    Memory.lookup ((i, b) :: rest) i = b := if_pos rfl

theorem Memory.lookup_cons_of_ne {i j : Nat} (h : i ≠ j) (b : Byte) (rest : List Host.Cell) :
    Memory.lookup ((j, b) :: rest) i = Memory.lookup rest i := if_neg h

/-- Canonical cells list nothing below the index they start from. -/
theorem Memory.lookup_of_lt {n k i : Nat} {cells : List Host.Cell} (hw : Memory.cellsWf n k cells = true) (hi : i < k) :
    Memory.lookup cells i = Config.unlistedByte := by
  induction cells generalizing k with
  | nil => rfl
  | cons c rest ih =>
    obtain ⟨j, b⟩ := c
    obtain ⟨hkj, -, -, hrest⟩ := Memory.cellsWf_cons.mp hw
    rw [Memory.lookup_cons_of_ne (by omega), ih hrest (by omega)]

/-- A listed index is told from an unlisted one by its reading. -/
theorem Memory.lookup_ne_of_lt {n i j k : Nat} {b d : Byte} {rest rest' : List Host.Cell} (hij : i < j)
    (hw : Memory.cellsWf n k ((i, b) :: rest) = true) (hw' : Memory.cellsWf n k ((j, d) :: rest') = true) :
    Memory.lookup ((i, b) :: rest) i ≠ Memory.lookup ((j, d) :: rest') i := by
  obtain ⟨-, -, hb, -⟩ := Memory.cellsWf_cons.mp hw
  obtain ⟨-, hj, hd, hrest'⟩ := Memory.cellsWf_cons.mp hw'
  have hw'' : Memory.cellsWf n j ((j, d) :: rest') = true := Memory.cellsWf_cons.mpr ⟨le_rfl, hj, hd, hrest'⟩
  rwa [Memory.lookup_cons_self, Memory.lookup_of_lt hw'' hij]

theorem Memory.cells_ext {n k : Nat} {cells cells' : List Host.Cell} (hw : Memory.cellsWf n k cells = true)
    (hw' : Memory.cellsWf n k cells' = true) (hread : ∀ i < n, Memory.lookup cells i = Memory.lookup cells' i) :
    cells = cells' := by
  induction cells generalizing k cells' with
  | nil =>
    cases cells' with
    | nil => rfl
    | cons c rest =>
      obtain ⟨-, hi, hb, -⟩ := Memory.cellsWf_cons.mp hw'
      exact absurd ((hread _ hi).trans (Memory.lookup_cons_self ..)).symm hb
  | cons c rest ih =>
    obtain ⟨i, b⟩ := c
    obtain ⟨-, hi, hb, hrest⟩ := Memory.cellsWf_cons.mp hw
    cases cells' with
    | nil => exact absurd ((hread i hi).symm.trans (Memory.lookup_cons_self ..)).symm hb
    | cons c' rest' =>
      obtain ⟨j, d⟩ := c'
      obtain ⟨-, hj, -, hrest'⟩ := Memory.cellsWf_cons.mp hw'
      rcases Nat.lt_trichotomy i j with hij | rfl | hji
      · exact absurd (hread i hi) (Memory.lookup_ne_of_lt hij hw hw')
      · have hbd : b = d := by simpa only [Memory.lookup_cons_self] using hread i hi
        have htail : rest = rest' := by
          refine ih hrest hrest' fun x hx => ?_
          by_cases hxi : x < i + 1
          · rw [Memory.lookup_of_lt hrest hxi, Memory.lookup_of_lt hrest' hxi]
          · have hne : x ≠ i := by omega
            simpa only [Memory.lookup_cons_of_ne hne] using hread x hx
        rw [hbd, htail]
      · exact absurd (hread j hj).symm (Memory.lookup_ne_of_lt hji hw' hw)

/-- Settles O48: the absent indices give the size, the others the cells. -/
theorem equalReadingsAreEqualBuffers : Obligations.EqualReadingsAreEqualBuffers := by
  intro m m' hw hw' hread
  have havail : m.avail = m'.avail := by
    apply Nat.le_antisymm
    · rw [← Memory.read_eq_none_iff, hread, Memory.read_eq_none_iff]
    · rw [← Memory.read_eq_none_iff, ← hread, Memory.read_eq_none_iff]
  obtain ⟨n, cells⟩ := m
  obtain ⟨n', cells'⟩ := m'
  obtain rfl : n = n' := havail
  have hlookup : ∀ i < n, Memory.lookup cells i = Memory.lookup cells' i := by
    intro i hi
    have h := hread i
    rwa [Memory.read_eq_some hi, Memory.read_eq_some hi, Option.some.injEq] at h
  exact congrArg (Memory.mk n) (Memory.cells_ext hw hw' hlookup)

/-! ### The environment's write (log 6) -/

theorem Memory.lookup_setCell {n k i : Nat} {b : Byte} {cells : List Host.Cell}
    (hw : Memory.cellsWf n k cells = true) (j : Nat) :
    Memory.lookup (Memory.setCell i b cells) j = if j = i then b else Memory.lookup cells j := by
  induction cells generalizing k with
  | nil =>
    rw [Memory.setCell]
    split
    · next hb => simp [Memory.lookup, hb]
    · rfl
  | cons c rest ih =>
    obtain ⟨l, d⟩ := c
    obtain ⟨-, -, -, hrest⟩ := Memory.cellsWf_cons.mp hw
    rw [Memory.setCell]
    split
    · next hil =>
      split
      · next hb =>
        split
        · next hji =>
          rw [hji, hb, Memory.lookup_cons_of_ne (by omega), Memory.lookup_of_lt hrest (by omega)]
        · rfl
      · rfl
    · split
      · next hil =>
        subst hil
        split
        · next hb =>
          split
          · next hji => rw [hji, hb, Memory.lookup_of_lt hrest (by omega)]
          · next hji => rw [Memory.lookup_cons_of_ne hji]
        · by_cases hji : j = i <;> simp [Memory.lookup, hji]
      · next hil hne =>
        by_cases hjl : j = l
        · rw [hjl, Memory.lookup_cons_self, Memory.lookup_cons_self, if_neg (Ne.symm hne)]
        · rw [Memory.lookup_cons_of_ne hjl, Memory.lookup_cons_of_ne hjl, ih hrest]

theorem Memory.read_write {m : Memory} (hw : m.wf = true) (i j : Nat) (b : Byte) :
    (m.write i b).read j = if j = i ∧ i < m.avail then some b else m.read j := by
  by_cases hi : i < m.avail
  · have hwrite : m.write i b = { m with cells := Memory.setCell i b m.cells } := if_pos hi
    rw [hwrite, Memory.read, Memory.read, Memory.lookup_setCell hw]
    by_cases hji : j = i
    · simp [hji, hi]
    · simp [hji]
  · rw [show m.write i b = m from if_neg hi, if_neg (fun h => hi h.2)]

/-- Settles O49: one cell set, the others as they were. -/
theorem environmentWriteReadsBack : Obligations.EnvironmentWriteReadsBack :=
  ⟨fun _ i j b hw => Memory.read_write hw i j b, fun _ _ _ _ hin => step_of_input hin⟩

end Sys2Proof.Machine
end

section
/-! The algorithm's laws (00_scope.md R9, R12, R16): the fold as a remainder, the bound of the word sum, and the range of the checksum. -/

namespace Sys2Proof.Algorithm

open Sys2Proof.Machine

/-! ### The fold -/

theorem fold_of_le {a : Nat} (h : a ≤ 0xFFFF) : fold a = a := by
  rcases fold_cases (a := a) (by omega) with ⟨_, hfold⟩ | ⟨hover, _⟩ | ⟨hover, _⟩
  · exact hfold
  · omega
  · omega

/-- The closed form of the fold: the remainder, counted from 1 (00_scope.md R12 (d)). -/
theorem fold_eq_mod {a : Nat} (h : a < 2 ^ 32) (hpos : 1 ≤ a) : fold a = (a - 1) % 0xFFFF + 1 := by
  rcases fold_cases h with ⟨_, hfold⟩ | ⟨_, _, hfold⟩ | ⟨_, _, hfold⟩ <;> rw [hfold] <;> omega

/-- The fold keeps the value modulo `0xFFFF`. -/
theorem fold_mod {a : Nat} (h : a < 2 ^ 32) : fold a % 0xFFFF = a % 0xFFFF := by
  rcases Nat.eq_zero_or_pos a with rfl | hpos
  · rfl
  · rw [fold_eq_mod h hpos]
    omega

/-- Settles O14: each law from the cases or the closed form of the fold. -/
theorem foldLaws : Obligations.FoldLaws := fun _ h =>
  ⟨fold_le h, fold_of_le (fold_le h), fold_eq_zero_iff h, fold_eq_mod h, fold_eq_max_iff h⟩

/-- A fold of a part of the sum does not change the fold of the sum (41_fold_finish.md R92). -/
theorem fold_fold_add {a b : Nat} (h : a + b < 2 ^ 32) (h' : fold a + b < 2 ^ 32) : fold (fold a + b) = fold (a + b) := by
  have ha : a < 2 ^ 32 := by omega
  have hmod := fold_mod ha
  have hzero := fold_eq_zero_iff ha
  by_cases hsum : a + b = 0
  · rw [show fold a + b = a + b by omega]
  · rw [fold_eq_mod h' (by omega), fold_eq_mod h (by omega)]
    omega

/-! ### The sum of the words -/

theorem wordsOf_sum_le (l : List Byte) : (wordsOf l).sum ≤ 0xFFFF * (l.length / 2) + 0xFF00 * (l.length % 2) := by
  induction l using wordsOf.induct with
  | case1 => exact Nat.le_refl 0
  | case2 b =>
    have hb := b.isLt
    have hword : (wordsOf [b]).sum = b.toNat * 256 := by simp [wordsOf]
    rw [hword, List.length_singleton]
    omega
  | case3 hi lo rest ih =>
    have hword := be16_le hi lo
    rw [wordsOf, List.sum_cons, List.length_cons, List.length_cons]
    omega

theorem wsum_le (data : List Byte) (len : Nat) : wsum data len ≤ 0xFFFF * (len / 2) + 0xFF00 * (len % 2) := by
  have hsum := wordsOf_sum_le (data.take len)
  have hlen : (data.take len).length ≤ len := by
    rw [List.length_take]
    omega
  rw [wsum, words]
  omega

/-- Settles O17: a pair adds at most `0xFFFF`, a trailing byte at most `0xFF00`. -/
theorem wordSumIsBounded : Obligations.WordSumIsBounded := wsum_le

/-- Filling a zero word adds its number to the sum. -/
theorem wordsOf_set_sum {l : List Byte} {k : Nat} {hi lo : Byte} (hhi : l[2 * k]? = some 0) (hlo : l[2 * k + 1]? = some 0) :
    (wordsOf ((l.set (2 * k) hi).set (2 * k + 1) lo)).sum = (wordsOf l).sum + be16 hi lo := by
  induction l using wordsOf.induct generalizing k with
  | case1 => exact absurd hhi (by simp)
  | case2 b => exact absurd hlo (by simp)
  | case3 a b rest ih =>
    cases k with
    | zero =>
      obtain ⟨rfl, rfl⟩ : a = 0 ∧ b = 0 := by simpa using And.intro hhi hlo
      simp [wordsOf, be16, Nat.add_comm]
    | succ k =>
      have hrest := ih (k := k) (by simpa [Nat.mul_succ] using hhi) (by simpa [Nat.mul_succ] using hlo)
      simp only [Nat.mul_succ, List.set_cons_succ, wordsOf, List.sum_cons, hrest, Nat.add_assoc]

theorem wsum_set {data : List Byte} {k len : Nat} {hi lo : Byte} (hlen : 2 * k + 1 < len) (hhi : data[2 * k]? = some 0)
    (hlo : data[2 * k + 1]? = some 0) :
    wsum ((data.set (2 * k) hi).set (2 * k + 1) lo) len = wsum data len + be16 hi lo := by
  rw [wsum, wsum, words, words, List.take_set, List.take_set, wordsOf_set_sum]
  · rwa [List.getElem?_take_of_lt (by omega)]
  · rwa [List.getElem?_take_of_lt hlen]

/-! ### The checksum -/

theorem csum_le (data : List Byte) (len : Nat) : csum data len ≤ 0xFFFF := Nat.sub_le _ _

/-- The two bytes of a 16-bit number are its word. -/
theorem be16_ofNat {c : Nat} (h : c ≤ 0xFFFF) : be16 (BitVec.ofNat 8 (c / 256)) (BitVec.ofNat 8 (c % 256)) = c := by
  simp only [be16, BitVec.toNat_ofNat]
  omega

/-- The sum with its checksum added is a positive multiple of `0xFFFF` (00_scope.md R16). -/
theorem add_cpl16_fold_mod {a : Nat} (h : a < 2 ^ 32) :
    0 < a + cpl16 (fold a) ∧ (a + cpl16 (fold a)) % 0xFFFF = 0 := by
  have hle := fold_le h
  have hmod := fold_mod h
  have hzero := fold_eq_zero_iff h
  rw [cpl16]
  omega

theorem csum_of_two_bytes {c : Nat} (h : c ≤ 0xFFFF) :
    csum [BitVec.ofNat 8 ((0xFFFF - c) / 256), BitVec.ofNat 8 ((0xFFFF - c) % 256)] 2 = c := by
  have hsum : wsum [BitVec.ofNat 8 ((0xFFFF - c) / 256), BitVec.ofNat 8 ((0xFFFF - c) % 256)] 2 = 0xFFFF - c := by
    simp only [wsum, words, List.take, wordsOf, List.sum_singleton]
    exact be16_ofNat (Nat.sub_le _ _)
  rw [csum, hsum, fold_of_le (Nat.sub_le _ _), cpl16]
  omega

/-- Settles O19: the extremes are those of the fold, and a filled-in checksum completes the sum to a multiple of `0xFFFF`. -/
theorem checksumRange : Obligations.ChecksumRange := by
  refine ⟨fun data len _ _ hsum => ⟨csum_le data len, ?_, cpl16_fold_eq_zero_iff hsum, fun k hk hhi hlo hfits => ?_⟩,
    fun c hc => ⟨_, rfl, csum_of_two_bytes hc⟩⟩
  · rw [csum, cpl16_fold_eq_max_iff hsum, wsum, List.sum_eq_zero_iff]
  · have hfilled := wsum_set (hi := BitVec.ofNat 8 (csum data len / 256)) (lo := BitVec.ofNat 8 (csum data len % 256))
      hk hhi hlo
    rw [be16_ofNat (csum_le data len)] at hfilled
    rw [csum, hfilled, cpl16_fold_eq_zero_iff hfits]
    exact add_cpl16_fold_mod hsum

end Sys2Proof.Algorithm
end

section
/-! The accumulate commands one after another (40_accumulate.md R83 to R85, 41_fold_finish.md R92, R93): a list of additions by its sum, and
the fold between and after them. -/

namespace Sys2Proof.Machine

open Sys2Proof.Algorithm

/-! ### One command -/

/-- Settles O8: the two operands are the same number. -/
theorem trailingByteEqualsShiftedWord : Obligations.TrailingByteEqualsShiftedWord := by
  intro b s
  have hoperand : trailingOperand b = wordOperand (b ++ (0 : Byte)) := by
    apply BitVec.eq_of_toNat_eq
    rw [trailingOperand_toNat, wordOperand_toNat, BitVec.toNat_append, Nat.shiftLeft_eq]
    simp
  rw [exec_addt, exec_addw, hoperand]

theorem foldAcc_foldAcc (a : Word) : foldAcc (foldAcc a) = foldAcc a := by
  apply BitVec.eq_of_toNat_eq
  rw [foldAcc_toNat, fold_of_le (foldAcc_le a)]

theorem exec_fold_of_clear {s : State} (hclear : s.err = 0) : exec .fold s = .next (foldAndRespond s) := by
  rw [exec_fold, unlessLatched_of_clear hclear]

theorem exec_fin_of_clear {s : State} (hclear : s.err = 0) : exec .fin s = .next (finishAndRespond s) := by
  rw [exec_fin, unlessLatched_of_clear hclear]

theorem exec_fold_fin_of_latched {s : State} (hlatched : s.err ≠ 0) :
    exec .fold s = .next (respond s.err 0 s) ∧ exec .fin s = .next (respond s.err 0 s) := by
  rw [exec_fold, exec_fin, unlessLatched_of_latched hlatched, unlessLatched_of_latched hlatched]
  exact ⟨rfl, rfl⟩

/-- Settles O13: a latched fault refuses all three alike; otherwise `FIN` folds an already folded `ACC` to itself. -/
theorem finishIsFoldThenComplement : Obligations.FinishIsFoldThenComplement := by
  intro s
  by_cases hclear : s.err = 0
  · have hboth := exec_fin_of_clear (s := foldAndRespond s) hclear
    refine ⟨_, _, _, _, _, exec_fold_of_clear hclear, exec_fin_of_clear hclear, hboth, rfl, ?_, foldAndRespond_sent s,
      finishAndRespond_sent s, ?_, rfl, fun _ => complement16_toNat (foldAcc_le s.acc)⟩
    · simp [State.regs, foldAcc_foldAcc]
    · simp [foldAcc_foldAcc]
  · obtain ⟨hfold, hfin⟩ := exec_fold_fin_of_latched hclear
    obtain ⟨-, hboth⟩ := exec_fold_fin_of_latched (s := respond s.err 0 s) hclear
    exact ⟨_, _, _, ⟨s.err, 0⟩, ⟨s.err, 0⟩, hfold, hfin, hboth, rfl, rfl, rfl, rfl, by simp, rfl,
      fun h => absurd h hclear⟩

/-! ### A list of additions -/

theorem execAll_append_of_next {l : List Instr} {s t : State} (h : execAll l s = .next t) (r : List Instr) :
    execAll (l ++ r) s = execAll r t := by
  induction l generalizing s with
  | nil => rw [List.nil_append, ← Host.Outcome.next.inj h]
  | cons i rest ih =>
    obtain ⟨u, hu⟩ := exec_answers i s
    rw [execAll_cons_of_next hu] at h
    rw [List.cons_append, execAll_cons_of_next hu, ih h]

theorem execAll_singleton (i : Instr) (s : State) : execAll [i] s = exec i s := by
  obtain ⟨t, ht⟩ := exec_answers i s
  rw [execAll_cons_of_next ht, ht, execAll]

/-- The state after `count` additions that fit and add `sum` in all. -/
def added (s : State) (sum count : Nat) : State :=
  { s with acc := BitVec.ofNat 32 (s.acc.toNat + sum), sent := s.sent ++ List.replicate count ⟨0, 0⟩ }

theorem added_acc_toNat {s : State} {sum : Nat} (h : s.acc.toNat + sum ≤ 0xFFFFFFFF) (count : Nat) :
    (added s sum count).acc.toNat = s.acc.toNat + sum := by
  rw [added, BitVec.toNat_ofNat, Nat.mod_eq_of_lt (by omega)]

theorem added_zero (s : State) : added s 0 0 = s := by simp [added]

theorem added_added {s : State} {a : Nat} (h : s.acc.toNat + a ≤ 0xFFFFFFFF) (b n m : Nat) :
    added (added s a n) b m = added s (a + b) (m + n) := by
  have hacc := added_acc_toNat h n
  refine State.ext_fields ?_ rfl rfl rfl rfl rfl ?_ rfl
  · show BitVec.ofNat 32 ((added s a n).acc.toNat + b) = BitVec.ofNat 32 (s.acc.toNat + (a + b))
    rw [hacc, Nat.add_assoc]
  · simp [added, Nat.add_comm m n]

/-- The commands that add, and what they add (40_accumulate.md R81, R82). -/
theorem addend_cases {i : Instr} {v : Nat} (h : addend i = some v) :
    (∃ imm16, i = .addw imm16 ∧ imm16.toNat = v) ∨ (∃ imm8, i = .addt imm8 ∧ imm8.toNat * 256 = v) := by
  cases i with
  | addw imm16 => exact .inl ⟨imm16, rfl, Option.some.inj h⟩
  | addt imm8 => exact .inr ⟨imm8, rfl, Option.some.inj h⟩
  | clr => exact absurd h nofun
  | fold => exact absurd h nofun
  | fin => exact absurd h nofun
  | run n => exact absurd h nofun
  | rdr r => exact absurd h nofun

theorem addend_le {i : Instr} {v : Nat} (h : addend i = some v) : v ≤ 0xFFFF := by
  rcases addend_cases h with ⟨imm16, -, rfl⟩ | ⟨imm8, -, rfl⟩
  · exact Nat.le_of_lt_succ imm16.isLt
  · have hb := imm8.isLt
    omega

/-- All a command that adds can do: it is refused, it adds its number, or it overflows (40_accumulate.md R81, R82). -/
theorem exec_of_addend {i : Instr} {v : Nat} (h : addend i = some v) (s : State) :
    (s.err ≠ 0 → exec i s = .next { s with sent := s.sent ++ [⟨s.err, 0⟩] }) ∧
    (s.err = 0 → s.acc.toNat + v ≤ 0xFFFFFFFF → exec i s = .next (added s v 1)) ∧
    (s.err = 0 → 0xFFFFFFFF < s.acc.toNat + v → exec i s = .next { s with err := 3, sent := s.sent ++ [⟨3, 0⟩] }) := by
  rcases addend_cases h with ⟨imm16, rfl, rfl⟩ | ⟨imm8, rfl, rfl⟩
  · exact addWordIsExactOrFaults.2 imm16 s
  · exact addTrailingByteIsExactOrFaults.2 imm8 s

theorem cons_of_map_addend {i : Instr} {l : List Instr} {adds : List Nat} (h : (i :: l).map addend = adds.map some) :
    ∃ v rest, adds = v :: rest ∧ addend i = some v ∧ l.map addend = rest.map some := by
  cases adds with
  | nil => exact absurd h nofun
  | cons v rest =>
    obtain ⟨hv, hrest⟩ := List.cons.inj h
    exact ⟨v, rest, rfl, hv, hrest⟩

theorem nil_of_map_addend {adds : List Nat} (h : ([] : List Instr).map addend = adds.map some) : adds = [] :=
  List.map_eq_nil_iff.mp h.symm

/-- Additions whose sum fits all answer `(0, 0)` and leave the exact sum (40_accumulate.md R85 (b)). -/
theorem execAll_additions_of_fits {l : List Instr} {adds : List Nat} {s : State} (hadds : l.map addend = adds.map some)
    (hclear : s.err = 0) (hfits : s.acc.toNat + adds.sum ≤ 0xFFFFFFFF) :
    execAll l s = .next (added s adds.sum l.length) := by
  induction l generalizing adds s with
  | nil =>
    rw [nil_of_map_addend hadds]
    exact congrArg _ (added_zero s).symm
  | cons i l ih =>
    obtain ⟨v, rest, rfl, hv, hrest⟩ := cons_of_map_addend hadds
    obtain ⟨-, hfit, -⟩ := exec_of_addend hv s
    rw [List.sum_cons] at hfits
    have hfirst : s.acc.toNat + v ≤ 0xFFFFFFFF := by omega
    rw [execAll_cons_of_next (hfit hclear hfirst), ih (s := added s v 1) hrest hclear, added_added hfirst, List.sum_cons,
      List.length_cons]
    rw [added_acc_toNat hfirst]
    omega

/-- Additions after a latched fault are refused one by one (60_exceptions.md R133). -/
theorem execAll_additions_of_latched {l : List Instr} {adds : List Nat} {s : State} (hadds : l.map addend = adds.map some)
    (hlatched : s.err ≠ 0) : ∃ t, execAll l s = .next t ∧ t.err = s.err := by
  induction l generalizing adds s with
  | nil => exact ⟨s, rfl, rfl⟩
  | cons i l ih =>
    obtain ⟨v, rest, rfl, hv, hrest⟩ := cons_of_map_addend hadds
    obtain ⟨hrefused, -, -⟩ := exec_of_addend hv s
    rw [execAll_cons_of_next (hrefused hlatched)]
    exact ih hrest hlatched

/-- Additions whose sum does not fit end with AccOverflow latched (40_accumulate.md R85 (c)). -/
theorem execAll_additions_of_exceeds {l : List Instr} {adds : List Nat} {s : State} (hadds : l.map addend = adds.map some)
    (hclear : s.err = 0) (hexceeds : 0xFFFFFFFF < s.acc.toNat + adds.sum) : ∃ t, execAll l s = .next t ∧ t.err = 3 := by
  induction l generalizing adds s with
  | nil =>
    have hacc := s.acc.isLt
    rw [nil_of_map_addend hadds, List.sum_nil] at hexceeds
    omega
  | cons i l ih =>
    obtain ⟨v, rest, rfl, hv, hrest⟩ := cons_of_map_addend hadds
    obtain ⟨-, hfit, hover⟩ := exec_of_addend hv s
    rw [List.sum_cons] at hexceeds
    rcases Nat.lt_or_ge 0xFFFFFFFF (s.acc.toNat + v) with hfirst | hfirst
    · rw [execAll_cons_of_next (hover hclear hfirst)]
      exact execAll_additions_of_latched hrest (show (3 : Code) ≠ 0 by decide)
    · rw [execAll_cons_of_next (hfit hclear hfirst)]
      refine ih hrest hclear ?_
      rw [added_acc_toNat hfirst]
      omega

theorem execAll_additions_err_iff {l : List Instr} {adds : List Nat} {s : State} (hadds : l.map addend = adds.map some)
    (hclear : s.err = 0) : ∃ t, execAll l s = .next t ∧ (t.err = 0 ↔ s.acc.toNat + adds.sum ≤ 0xFFFFFFFF) := by
  rcases Nat.lt_or_ge 0xFFFFFFFF (s.acc.toNat + adds.sum) with hexceeds | hfits
  · obtain ⟨t, ht, herr⟩ := execAll_additions_of_exceeds hadds hclear hexceeds
    refine ⟨t, ht, iff_of_false ?_ (Nat.not_le.mpr hexceeds)⟩
    rw [herr]
    decide
  · exact ⟨_, execAll_additions_of_fits hadds hclear hfits, iff_of_true hclear hfits⟩

/-- A permuted list of additions adds the permuted numbers. -/
theorem map_addend_of_perm {l l' : List Instr} {adds : List Nat} (hadds : l.map addend = adds.map some)
    (hperm : l'.Perm l) : ∃ adds' : List Nat, l'.map addend = adds'.map some ∧ adds'.Perm adds := by
  have hmap : (l'.map addend).Perm (adds.map some) := hadds ▸ hperm.map addend
  have hcomp := congrFun (congrFun (List.eq_map_comp_perm some) (l'.map addend)) adds
  exact hcomp.mpr hmap

/-- Settles O9: both orders have the sum that decides the fault and is left when there is none. -/
theorem additionOrderIsFree : Obligations.AdditionOrderIsFree := by
  intro l l' adds s hadds hperm hclear
  obtain ⟨adds', hadds', hsame⟩ := map_addend_of_perm hadds hperm
  obtain ⟨t, ht, hfault⟩ := execAll_additions_err_iff hadds hclear
  obtain ⟨t', ht', hfault'⟩ := execAll_additions_err_iff hadds' hclear
  rw [hsame.sum_eq] at hfault'
  refine ⟨t, t', ht, ht', hfault, hfault', fun herr => ?_⟩
  have hfits := hfault.mp herr
  have hleft := execAll_additions_of_fits hadds hclear hfits
  have hleft' := execAll_additions_of_fits hadds' hclear (hsame.sum_eq ▸ hfits)
  rw [hsame.sum_eq, hperm.length_eq] at hleft'
  have htadded := Host.Outcome.next.inj (ht.symm.trans hleft)
  have htadded' := Host.Outcome.next.inj (ht'.symm.trans hleft')
  exact ⟨htadded'.trans htadded.symm, by rw [htadded, added_acc_toNat hfits]⟩

theorem additions_sum_le {l : List Instr} {adds : List Nat} (hadds : l.map addend = adds.map some) :
    adds.sum ≤ 0xFFFF * l.length := by
  induction l generalizing adds with
  | nil =>
    rw [nil_of_map_addend hadds]
    exact Nat.zero_le _
  | cons i l ih =>
    obtain ⟨v, rest, rfl, hv, hrest⟩ := cons_of_map_addend hadds
    have hle := addend_le hv
    have hsum := ih hrest
    rw [List.sum_cons, List.length_cons]
    omega

/-- Settles O10: each addition adds at most `0xFFFF`, so the sum fits. -/
theorem additionsWithinTheMarginSucceed : Obligations.AdditionsWithinTheMarginSucceed := by
  intro l adds s hadds hclear hmargin
  have hsum := additions_sum_le hadds
  refine execAll_additions_of_fits hadds hclear ?_
  rcases hmargin with ⟨hacc, hlen⟩ | ⟨hacc, hlen⟩
  · have hzero : s.acc.toNat = 0 := congrArg BitVec.toNat hacc
    omega
  · omega

/-! ### The fold between and after additions -/

theorem foldAcc_eq_ofNat (a : Word) : foldAcc a = BitVec.ofNat 32 (fold a.toNat) := by
  rw [← foldAcc_toNat, BitVec.ofNat_toNat, BitVec.setWidth_eq]

theorem complement16_foldAcc_eq_ofNat (a : Word) : complement16 (foldAcc a) = BitVec.ofNat 32 (cpl16 (fold a.toNat)) := by
  rw [← foldAcc_toNat, ← complement16_toNat (foldAcc_le a), BitVec.ofNat_toNat, BitVec.setWidth_eq]

/-- Additions that fit, then `FIN`. -/
theorem execAll_additions_fin {l : List Instr} {adds : List Nat} {s : State} (hadds : l.map addend = adds.map some)
    (hclear : s.err = 0) (hfits : s.acc.toNat + adds.sum ≤ 0xFFFFFFFF) :
    execAll (l ++ [.fin]) s = .next (finishAndRespond (added s adds.sum l.length)) := by
  rw [execAll_append_of_next (execAll_additions_of_fits hadds hclear hfits), execAll_singleton]
  exact exec_fin_of_clear hclear

/-- Settles O15: the two sums have the same fold. -/
theorem accumulationContinuesAfterFold : Obligations.AccumulationContinuesAfterFold := by
  intro l adds s hadds hclear hfits hfits'
  have hfold : (foldAndRespond s).acc.toNat = fold s.acc.toNat := foldAcc_toNat s.acc
  have ht := execAll_additions_fin hadds hclear hfits
  have hu := execAll_additions_fin (s := foldAndRespond s) hadds hclear (by rwa [hfold])
  rw [← execAll_cons_of_next (exec_fold_of_clear hclear)] at hu
  have hsame : foldAcc (added (foldAndRespond s) adds.sum l.length).acc = foldAcc (added s adds.sum l.length).acc := by
    apply BitVec.eq_of_toNat_eq
    rw [foldAcc_toNat, foldAcc_toNat, added_acc_toNat hfits, added_acc_toNat (by rwa [hfold]), hfold]
    exact fold_fold_add (by omega) (by omega)
  refine ⟨_, _, ⟨codeOk, complement16 (foldAcc (added s adds.sum l.length).acc)⟩, ht, hu,
    congrArg (fun a => (⟨a, s.err, s.len, s.idx⟩ : Regs)) hsame.symm, ?_, ?_, rfl⟩
  · rw [finishAndRespond_sent, List.getLast?_concat]
  · rw [finishAndRespond_sent, List.getLast?_concat, hsame]

end Sys2Proof.Machine
end

section
/-! `RUN` in closed form (10_state.md R25, 40_accumulate.md R85 (d), 42_run.md R108): the first word that stops it decides the end, any number
of rounds stands between two words, and short lengths cannot overflow. -/

namespace Sys2Proof.Machine

open Sys2Proof.Algorithm

/-- When no word stops `RUN`, the whole sum fits. -/
theorem wsum_le_of_no_stop {s : State} {n : Length} (hn : n ≠ 0) (h : ∀ k, 2 * k < n.toNat → ¬ stopsAt s n k) :
    wsum s.buf.bytes n.toNat ≤ 0xFFFFFFFF := by
  have hpos : n.toNat ≠ 0 := fun h0 => hn (BitVec.eq_of_toNat_eq h0)
  have hlast : min (2 * ((n.toNat - 1) / 2) + 2) n.toNat = n.toNat := by omega
  have hfit := h ((n.toNat - 1) / 2) (by omega)
  rw [stopsAt, hlast, not_or, not_lt] at hfit
  exact hfit.2

/-- Settles O24: the word that stops `RUN` first, by an absent byte or by its addition, or none. -/
theorem runHasTheClosedForm : Obligations.RunHasTheClosedForm := by
  intro n s N S lacks fails
  refine ⟨?zero, fun k hk hfails hbefore => ?stops, fun hn hgo => ?finishes⟩
  case zero =>
    rintro rfl
    exact exec_run_zero s
  case stops =>
    have hword : 2 * k < n.toNat := by omega
    have hsum : S k = wsum s.buf.bytes (2 * k) := congrArg (wsum s.buf.bytes) (Nat.min_eq_left hword.le)
    rw [hsum]
    by_cases hl : lacks k
    · exact ⟨2, fun _ => rfl, fun hnl => absurd hl hnl, exec_run_of_lacksByte hword hbefore hl⟩
    · exact ⟨3, fun h => absurd h hl, fun _ => rfl, exec_run_of_overflow hword hbefore hl hfails⟩
  case finishes =>
    have hstop : ∀ k, 2 * k < n.toNat → ¬ stopsAt s n k := fun k hk => hgo k (by omega)
    have hsum : S ((n.toNat + 1) / 2) = wsum s.buf.bytes n.toNat :=
      congrArg (wsum s.buf.bytes) (by omega : min (2 * ((n.toNat + 1) / 2)) n.toNat = n.toNat)
    rw [hsum, exec_run_of_no_stop hn hstop, finish_midRun_eq (wsum_le_of_no_stop hn hstop)]

/-! ### Inside `RUN` (10_state.md R25) -/

/-- A round of the pair loop that goes on has added its pair, whose bytes exist and whose sum fits. -/
theorem pairRound_go {s t : State} {n : Length} {k : Nat} (hk : 2 * k + 1 < n.toNat) (hN : 2 * k ≤ s.buf.avail)
    (hsum : wsum s.buf.bytes (2 * k) ≤ 0xFFFFFFFF) (h : pairRound (midRun s n (2 * k)) = .go t) :
    t = midRun s n (2 * (k + 1)) ∧ 2 * (k + 1) ≤ s.buf.avail ∧ wsum s.buf.bytes (2 * (k + 1)) ≤ 0xFFFFFFFF := by
  obtain ⟨hlack, hover, hgo⟩ := pairRound_midRun hk hN hsum
  have hpair : min (2 * k + 2) n.toNat = 2 * k + 2 := by omega
  have hheld : ¬ lacksByte s n k := fun hl => absurd (h.symm.trans (hlack hl)) nofun
  have hfit : wsum s.buf.bytes (2 * k + 2) ≤ 0xFFFFFFFF :=
    Nat.le_of_not_lt fun hexceeds => absurd (h.symm.trans (hover hheld hexceeds)) nofun
  have hns : ¬ stopsAt s n k := by
    rw [stopsAt, hpair]
    exact not_or.mpr ⟨hheld, Nat.not_lt.mpr hfit⟩
  refine ⟨Flow.go.inj (h.symm.trans (hgo hns)), ?_, hfit⟩
  unfold lacksByte at hheld
  omega

/-- Rounds of the pair loop that go on stand between two words. -/
theorem pairLoop_go {s t : State} {n : Length} (hn : n ≠ 0) (rounds k : Nat) (hk : 2 * k ≤ n.toNat)
    (hN : 2 * k ≤ s.buf.avail) (hsum : wsum s.buf.bytes (2 * k) ≤ 0xFFFFFFFF)
    (h : pairLoop rounds (midRun s n (2 * k)) = .go t) :
    ∃ j, t = midRun s n (2 * j) ∧ 2 * j ≤ n.toNat ∧ wsum s.buf.bytes (2 * j) ≤ 0xFFFFFFFF := by
  induction rounds generalizing k with
  | zero => exact ⟨k, (Flow.go.inj h).symm, hk, hsum⟩
  | succ rounds ih =>
    rw [pairLoop] at h
    by_cases htest : 2 * k + 1 < n.toNat
    · rw [if_pos ((loopTest_iff hn hk).mpr htest)] at h
      cases hround : pairRound (midRun s n (2 * k)) with
      | ended u =>
        rw [hround] at h
        exact absurd h nofun
      | go u =>
        obtain ⟨rfl, hN', hsum'⟩ := pairRound_go htest hN hsum hround
        rw [hround] at h
        exact ih (k + 1) (by omega) hN' hsum' h
    · rw [if_neg fun hlt => htest ((loopTest_iff hn hk).mp hlt)] at h
      exact ⟨k, (Flow.go.inj h).symm, hk, hsum⟩

/-- When `RUN` goes on past its last word, no word has stopped it. -/
theorem no_stop_of_go {s t : State} {n : Length}
    (h : (pairLoop n.toNat (runStart n s)).andThen trailingByte = .go t) : ∀ k, 2 * k < n.toNat → ¬ stopsAt s n k := by
  intro k
  induction k using Nat.strong_induction_on with
  | h k ih =>
    intro hk hstop
    obtain ⟨hlack, hover⟩ := addWords_of_first_stop hk fun j hj => ih j hj (by omega)
    by_cases hl : lacksByte s n k
    · exact absurd (h.symm.trans (hlack hl)) nofun
    · exact absurd (h.symm.trans (hover hl hstop)) nofun

/-- Settles O27: the states inside `RUN` are `midRun` at a word boundary, and after the trailing byte at the end. -/
theorem pairLoopKeepsThePartialSum : Obligations.PairLoopKeepsThePartialSum := by
  intro n s t hn
  refine ⟨fun rounds h => ?_, fun h => ?_⟩
  · rw [runStart_eq_midRun] at h
    obtain ⟨hN, hsum⟩ := fits_of_no_stop_before (s := s) (n := n) (k := 0) (Nat.zero_le _) nofun
    obtain ⟨j, rfl, hj, hfits⟩ := pairLoop_go hn rounds 0 (Nat.zero_le _) hN hsum h
    rw [midRun_idx_toNat hj]
    exact ⟨midRun_acc_toNat hfits, hj, by omega, rfl, rfl⟩
  · have hgo := no_stop_of_go h
    obtain rfl := Flow.go.inj (h.symm.trans (addWords_of_no_stop hn hgo))
    exact ⟨midRun_acc_toNat (wsum_le_of_no_stop hn hgo), BitVec.eq_of_toNat_eq (midRun_idx_toNat le_rfl), rfl, rfl⟩

/-! ### The margin (40_accumulate.md R85 (d)) -/

/-- Settles O28: the words of 131,074 bytes sum to `0xFFFFFFFF` at most. -/
theorem runWithinTheMarginNeverOverflows : Obligations.RunWithinTheMarginNeverOverflows := by
  intro n s hn
  rcases exec_run_cases n s with ⟨-, ht⟩ | ⟨k, hk, -, ⟨-, ht⟩ | ⟨hheld, hstop, -⟩⟩ | ⟨-, -, ht⟩
  · exact ⟨_, ht, by rw [raise_err]; decide⟩
  · exact ⟨_, ht, by rw [stopRun_err]; decide⟩
  · have hle := wsum_le s.buf.bytes (min (2 * k + 2) n.toNat)
    have hexceeds := hstop.resolve_left hheld
    omega
  · exact ⟨_, ht, by rw [finishAndRespond_err, midRun_err]; decide⟩

end Sys2Proof.Machine
end

section
/-! The frame of the commands other than `RUN` (10_state.md R24, R25, 40_accumulate.md, 41_fold_finish.md, 43_system.md). -/

namespace Sys2Proof.Machine

/-- A field that neither the effect nor a response writes. -/
theorem unlessLatched_keeps {α : Type} (field : State → α) {effect : State → State} {s : State}
    (heffect : field (effect s) = field s) (hrespond : field (respond s.err 0 s) = field s) :
    field (unlessLatched effect s) = field s := by
  by_cases hclear : s.err = 0
  · rw [unlessLatched_of_clear hclear, heffect]
  · rw [unlessLatched_of_latched hclear, hrespond]

/-- The frame of an addition (40_accumulate.md R81, R82). -/
theorem addition_frame (w : Word) (s : State) :
    (unlessLatched (addAndRespond w) s).len = s.len ∧ (unlessLatched (addAndRespond w) s).idx = s.idx ∧
      ((unlessLatched (addAndRespond w) s).err = s.err ∨
        (unlessLatched (addAndRespond w) s).err = 3 ∧ (unlessLatched (addAndRespond w) s).acc = s.acc) := by
  obtain ⟨hlatched, hfits, hexceeds⟩ := unlessLatched_addAndRespond_eq w s
  by_cases hclear : s.err = 0
  · rcases Nat.lt_or_ge 0xFFFFFFFF (s.acc.toNat + w.toNat) with hover | hfit
    · rw [hexceeds hclear hover]
      exact ⟨rfl, rfl, .inr ⟨rfl, rfl⟩⟩
    · rw [hfits hclear hfit]
      exact ⟨rfl, rfl, .inl rfl⟩
  · rw [hlatched hclear]
    exact ⟨rfl, rfl, .inl rfl⟩

/-- Settles O50: the port by `exec_leavesPort`, the registers command by command. -/
theorem frameOfTheRegisterCommands : Obligations.FrameOfTheRegisterCommands := by
  intro i s hi
  obtain ⟨t, ht, hport⟩ := exec_leavesPort hi s
  refine ⟨t, ht, hport.reads, hport.inputs, fun a => by rw [hport.buf], ?_⟩
  cases i with
  | clr => simp [Instr.opcode]
  | addw v =>
    obtain rfl := Host.Outcome.next.inj ((exec_addw v s).symm.trans ht)
    obtain ⟨hlen, hidx, herr⟩ := addition_frame (wordOperand v) s
    exact ⟨fun _ => ⟨hlen, hidx⟩, by simp [Instr.opcode], by simp [Instr.opcode], fun _ => herr⟩
  | addt b =>
    obtain rfl := Host.Outcome.next.inj ((exec_addt b s).symm.trans ht)
    obtain ⟨hlen, hidx, herr⟩ := addition_frame (trailingOperand b) s
    exact ⟨fun _ => ⟨hlen, hidx⟩, by simp [Instr.opcode], by simp [Instr.opcode], fun _ => herr⟩
  | fold =>
    obtain rfl := Host.Outcome.next.inj ((exec_fold s).symm.trans ht)
    exact ⟨fun _ => ⟨unlessLatched_keeps State.len rfl rfl, unlessLatched_keeps State.idx rfl rfl⟩,
      fun _ => unlessLatched_keeps State.err rfl rfl, by simp [Instr.opcode], by simp [Instr.opcode]⟩
  | fin =>
    obtain rfl := Host.Outcome.next.inj ((exec_fin s).symm.trans ht)
    exact ⟨fun _ => ⟨unlessLatched_keeps State.len rfl rfl, unlessLatched_keeps State.idx rfl rfl⟩,
      fun _ => unlessLatched_keeps State.err rfl rfl, by simp [Instr.opcode], by simp [Instr.opcode]⟩
  | run n => exact absurd rfl (hi n)
  | rdr r =>
    obtain rfl := Host.Outcome.next.inj ((exec_rdr r s).symm.trans ht)
    exact ⟨fun _ => ⟨rfl, rfl⟩, fun _ => rfl, fun _ => rfl, by simp [Instr.opcode]⟩

end Sys2Proof.Machine
end

section
/-! Leaving out register reads (43_system.md R122): no command looks at the record of responses, and `RDR` writes nothing else. -/

namespace Sys2Proof.Machine

/-- An effect whose response and whose other fields do not depend on the record of responses (log 3). -/
def IgnoresSent (effect : State → State) (s : State) : Prop :=
  ∃ r, (effect s).sent = s.sent ++ [r] ∧
    ∀ l, effect { s with sent := l } = { effect s with sent := l ++ [r] }

theorem addAndRespond_ignoresSent (w : Word) (s : State) : IgnoresSent (addAndRespond w) s := by
  rcases Nat.lt_or_ge 0xFFFFFFFF (s.acc.toNat + w.toNat) with hover | hfit
  · refine ⟨⟨3, 0⟩, by rw [addAndRespond_of_exceeds hover]; rfl, fun l => ?_⟩
    rw [addAndRespond_of_exceeds hover, addAndRespond_of_exceeds (s := { s with sent := l }) hover]
    rfl
  · refine ⟨⟨0, 0⟩, by rw [addAndRespond_of_fits hfit]; rfl, fun l => ?_⟩
    rw [addAndRespond_of_fits hfit, addAndRespond_of_fits (s := { s with sent := l }) hfit]
    rfl

theorem unlessLatched_ignoresSent {effect : State → State} {s : State} (h : IgnoresSent effect s) :
    IgnoresSent (unlessLatched effect) s := by
  by_cases hclear : s.err = 0
  · obtain ⟨r, hsent, hsame⟩ := h
    refine ⟨r, by rw [unlessLatched_of_clear hclear, hsent], fun l => ?_⟩
    rw [unlessLatched_of_clear hclear, unlessLatched_of_clear (s := { s with sent := l }) hclear, hsame]
  · refine ⟨⟨s.err, 0⟩, by rw [unlessLatched_of_latched hclear]; rfl, fun l => ?_⟩
    rw [unlessLatched_of_latched hclear, unlessLatched_of_latched (s := { s with sent := l }) hclear]
    rfl

/-- The record of responses is no input of `RUN` (42_run.md R109). -/
theorem exec_run_setSent (n : Length) (s : State) (l : List Response) :
    ∃ t r, exec (.run n) s = .next t ∧ t.sent = s.sent ++ [r] ∧
      exec (.run n) { s with sent := l } = .next { t with sent := l ++ [r] } := by
  have hinput : SameInput n s { s with sent := l } := ⟨rfl, fun _ _ => rfl⟩
  obtain ⟨t, u, r, reads, ht, hu, halike⟩ := hinput.exec_run_endAlike
  obtain ⟨_, ht', hbuf, hinputs⟩ := exec_run_buf_inputs n s
  obtain ⟨_, hu', hbuf', hinputs'⟩ := exec_run_buf_inputs n { s with sent := l }
  obtain rfl := Host.Outcome.next.inj (ht.symm.trans ht')
  obtain rfl := Host.Outcome.next.inj (hu.symm.trans hu')
  have hregs := halike.regs.symm
  have hsame : u = { t with sent := l ++ [r] } :=
    State.ext_fields (congrArg Regs.acc hregs) (congrArg Regs.err hregs) (congrArg Regs.len hregs)
      (congrArg Regs.idx hregs) (hbuf'.trans hbuf.symm) (hinputs'.trans hinputs.symm) halike.sent'
      (halike.reads'.trans halike.reads.symm)
  exact ⟨t, r, ht, halike.sent, hsame ▸ hu⟩

/-- A command does the same whatever responses were sent before it (log 3). -/
theorem exec_setSent (i : Instr) (s : State) (l : List Response) :
    ∃ t r, exec i s = .next t ∧ t.sent = s.sent ++ [r] ∧
      exec i { s with sent := l } = .next { t with sent := l ++ [r] } := by
  have hunless {effect : State → State} (h : IgnoresSent effect s) :
      ∃ t r, (.next (unlessLatched effect s) : Host.Outcome State Fault Refusal) = .next t ∧ t.sent = s.sent ++ [r] ∧
        (.next (unlessLatched effect { s with sent := l }) : Host.Outcome State Fault Refusal) =
          .next { t with sent := l ++ [r] } :=
    have ⟨r, hsent, hsame⟩ := unlessLatched_ignoresSent h
    ⟨_, r, rfl, hsent, congrArg _ (hsame l)⟩
  cases i with
  | clr => exact ⟨_, _, exec_clr s, rfl, rfl⟩
  | addw v => exact hunless (addAndRespond_ignoresSent _ s)
  | addt b => exact hunless (addAndRespond_ignoresSent _ s)
  | fold => exact hunless ⟨_, foldAndRespond_sent s, fun _ => rfl⟩
  | fin => exact hunless ⟨_, finishAndRespond_sent s, fun _ => rfl⟩
  | run n => exact exec_run_setSent n s l
  | rdr r => exact ⟨_, _, exec_rdr r s, rfl, by cases r <;> rfl⟩

/-- The commands that stay when every `RDR` is left out. -/
def staysWithoutReads (i : Instr) : Bool := i.opcode != .rdr

/-- The responses of the commands that stay. -/
def keptResponses (l : List Instr) (rs : List Response) : List Response :=
  ((l.zip rs).filter fun p => staysWithoutReads p.1).map Prod.snd

/-- The run without its `RDR`s, from a state with any record of responses, leaves what the whole run leaves. -/
theorem execAll_without_reads (l : List Instr) (s : State) (sent : List Response) :
    ∃ t rs, execAll l s = .next t ∧ rs.length = l.length ∧ t.sent = s.sent ++ rs ∧
      execAll (l.filter staysWithoutReads) { s with sent := sent } =
        .next { t with sent := sent ++ keptResponses l rs } := by
  induction l generalizing s sent with
  | nil => exact ⟨s, [], rfl, rfl, (List.append_nil _).symm, by simp [keptResponses, execAll]⟩
  | cons i l ih =>
    obtain ⟨t, r, ht, hsent, hsame⟩ := exec_setSent i s sent
    have hcons {u : State} {rs : List Response} (h : u.sent = t.sent ++ rs) : u.sent = s.sent ++ r :: rs := by
      rw [h, hsent, List.append_assoc, List.singleton_append]
    cases hstays : staysWithoutReads i with
    | true =>
      obtain ⟨u, rs, hu, hlen, hsent', hu'⟩ := ih t (sent ++ [r])
      refine ⟨u, r :: rs, (execAll_cons_of_next ht l).trans hu, congrArg (· + 1) hlen, hcons hsent', ?_⟩
      rw [List.filter_cons_of_pos hstays, execAll_cons_of_next hsame, hu', List.append_assoc]
      simp [keptResponses, hstays]
    | false =>
      obtain ⟨u, rs, hu, hlen, hsent', hu'⟩ := ih t sent
      have hread : ({ s with sent := sent } : State) = { t with sent := sent } := by
        cases i with
        | rdr x => rw [← Host.Outcome.next.inj ((exec_rdr x s).symm.trans ht)]
        | _ => exact absurd (show true = false from hstays) (by decide)
      refine ⟨u, r :: rs, (execAll_cons_of_next ht l).trans hu, congrArg (· + 1) hlen, hcons hsent', ?_⟩
      rw [List.filter_cons_of_neg (by rw [hstays]; decide), hread, hu']
      simp [keptResponses, hstays]

/-- Settles O31: the run without reads starts from the same state, its record of responses included. -/
theorem leavingOutRegisterReadsChangesNothing : Obligations.LeavingOutRegisterReadsChangesNothing := by
  intro l s stays
  obtain ⟨t, rs, ht, hlen, hsent, hu⟩ := execAll_without_reads l s s.sent
  exact ⟨t, _, rs, ht, hu, hlen, hsent, rfl, rfl, rfl, rfl, rfl⟩

end Sys2Proof.Machine
end

section
/-! The source lines (30_encoding.md R69 to R71): their ranges, their words as numbers, and that a mnemonic line emits encoded commands
alone. -/

namespace Sys2Proof

open Sys2Proof.Algorithm

/-- The word of a command as a number: `(OP << 24) | operand` (30_encoding.md R69). -/
theorem encode_eq_ofNat {i : Instr} {c v : Nat} (hc : i.opcode.code.toNat = c) (hv : i.operand.toNat = v) :
    encode i = BitVec.ofNat 32 (c * 2 ^ 24 + v) := by
  obtain ⟨hop, harg, -⟩ := encoded_fields i
  have hword := word_toNat (encode i)
  rw [hop, harg, hc, hv] at hword
  rw [← hword, BitVec.ofNat_toNat, BitVec.setWidth_eq]

theorem toNat_setWidth_ofNat {k v : Nat} (hk : k ≤ 24) (hv : v < 2 ^ k) :
    ((BitVec.ofNat k v).setWidth 24).toNat = v := by
  have hv' : v < 2 ^ 24 := lt_of_lt_of_le hv (Nat.pow_le_pow_right (by decide) hk)
  rw [BitVec.toNat_setWidth, BitVec.toNat_ofNat, Nat.mod_eq_of_lt hv, Nat.mod_eq_of_lt hv']

/-- Two bytes side by side are the big-endian word of the pair (00_scope.md R7). -/
theorem byte_append_toNat (hi lo : Byte) : (hi ++ lo).toNat = be16 hi lo := by
  rw [BitVec.toNat_append, ← Nat.shiftLeft_add_eq_or_of_lt lo.isLt, Nat.shiftLeft_eq]
  rfl

/-- A line with a range: its words inside it, an assembly error outside. -/
theorem assemble_eq_ite {l : Line} {p : Prop} [Decidable p] {ws : List Word} (hrange : l.wellFormed = decide p)
    (hwords : p → l.words = ws) : assemble l = if p then some ws else none := by
  by_cases hp : p
  · rw [assemble_of_wellFormed (by simp [hrange, hp]), hwords hp, if_pos hp]
  · rw [assemble_of_not_wellFormed (by simp [hrange, hp]), if_neg hp]

theorem assemble_addw (v : Nat) :
    assemble (.addw v) = if v ≤ 0xFFFF then some [BitVec.ofNat 32 (0x02 * 2 ^ 24 + v)] else none :=
  assemble_eq_ite rfl fun hv =>
    congrArg (fun w => [w]) (encode_eq_ofNat rfl (toNat_setWidth_ofNat (by decide) (Nat.lt_succ_of_le hv)))

theorem assemble_addt (v : Nat) :
    assemble (.addt v) = if v ≤ 0xFF then some [BitVec.ofNat 32 (0x03 * 2 ^ 24 + v)] else none :=
  assemble_eq_ite rfl fun hv =>
    congrArg (fun w => [w]) (encode_eq_ofNat rfl (toNat_setWidth_ofNat (by decide) (Nat.lt_succ_of_le hv)))

theorem assemble_run (v : Nat) :
    assemble (.run v) = if v ≤ 0xFFFFFF then some [BitVec.ofNat 32 (0x06 * 2 ^ 24 + v)] else none := by
  refine assemble_eq_ite rfl fun hv => congrArg (fun w => [w]) (encode_eq_ofNat rfl ?_)
  rw [Instr.operand, BitVec.toNat_ofNat, Nat.mod_eq_of_lt (Nat.lt_succ_of_le hv)]

theorem assemble_rdr (v : Nat) :
    assemble (.rdr v) = if v ≤ 3 then some [BitVec.ofNat 32 (0x07 * 2 ^ 24 + v)] else none := by
  refine assemble_eq_ite rfl fun hv => congrArg (fun w => [w]) (encode_eq_ofNat rfl ?_)
  rw [Instr.operand, toBits_ofBits, toNat_setWidth_ofNat (by decide) (Nat.lt_succ_of_le hv)]

theorem assemble_addp (hi lo : Nat) : assemble (.addp hi lo) =
    if hi ≤ 0xFF ∧ lo ≤ 0xFF then some [BitVec.ofNat 32 (0x02 * 2 ^ 24 + (hi * 256 + lo))] else none := by
  refine assemble_eq_ite (by simp [Line.wellFormed]) fun ⟨hhi, hlo⟩ => congrArg (fun w => [w]) (encode_eq_ofNat rfl ?_)
  rw [Instr.operand, BitVec.toNat_setWidth, byte_append_toNat, be16, BitVec.toNat_ofNat, BitVec.toNat_ofNat]
  omega

theorem assemble_compute_eq_none_iff (vs : List Nat) :
    assemble (.compute vs) = none ↔ vs = [] ∨ ∃ v ∈ vs, 0xFF < v := by
  have hrange : (Line.compute vs).wellFormed = true ↔ ¬ (vs = [] ∨ ∃ v ∈ vs, 0xFF < v) := by
    simp [Line.wellFormed]
  by_cases hwf : (Line.compute vs).wellFormed = true
  · rw [assemble_of_wellFormed hwf]
    exact iff_of_false nofun (hrange.mp hwf)
  · rw [assemble_of_not_wellFormed hwf]
    exact iff_of_true rfl (not_not.mp (hrange.not.mp hwf))

theorem words_of_assemble {l : Line} {ws : List Word} (h : assemble l = some ws) : ws = l.words := by
  rw [assemble] at h
  split at h
  · exact (Option.some.inj h).symm
  · exact absurd h nofun

/-- A line that is no `.word` emits the words of commands (30_encoding.md R69 to R71). -/
theorem words_encoded {l : Line} (h : ∀ v, l ≠ .word v) : ∃ is : List Instr, l.words = is.map encode := by
  cases l with
  | clr => exact ⟨[_], rfl⟩
  | addw v => exact ⟨[_], rfl⟩
  | addt v => exact ⟨[_], rfl⟩
  | fold => exact ⟨[_], rfl⟩
  | fin => exact ⟨[_], rfl⟩
  | run v => exact ⟨[_], rfl⟩
  | rdr v => exact ⟨[_], rfl⟩
  | rdrNamed r => exact ⟨[_], rfl⟩
  | word v => exact absurd rfl (h v)
  | addp hi lo => exact ⟨[_], rfl⟩
  | compute bytes => exact ⟨_, rfl⟩

/-- Settles O37: each line by its range and its operand; an encoded command decodes. -/
theorem sourceLinesAssembleInRange : Obligations.SourceLinesAssembleInRange := by
  refine ⟨by decide, assemble_addw, assemble_addt, assemble_run, assemble_rdr, by decide,
    fun v => assemble_eq_ite rfl fun _ => rfl, assemble_addp, assemble_compute_eq_none_iff,
    fun vs ws => words_of_assemble, fun l ws h hl w hw => ?_⟩
  obtain ⟨is, his⟩ := words_encoded hl
  rw [words_of_assemble h, his] at hw
  obtain ⟨i, -, rfl⟩ := List.mem_map.mp hw
  exact ⟨i, decode_encode i⟩

end Sys2Proof
end

section
/-! `COMPUTE` (30_encoding.md R71, the last sentence of 42_run.md R108): its additions are the words of its bytes, so it answers what `RUN`
answers. -/

namespace Sys2Proof.Machine

open Sys2Proof.Algorithm

/-! ### The expansion -/

theorem assemble_compute_bytes {bytes : List Byte} (hne : bytes ≠ []) :
    assemble (.compute (bytes.map BitVec.toNat)) = some ((computeCommands bytes).map encode) := by
  have hbyte : ∀ b : Byte, b.toNat ≤ 0xFF := fun b => Nat.le_of_lt_succ b.isLt
  have hback : (bytes.map BitVec.toNat).map (BitVec.ofNat 8) = bytes := by simp [Function.comp_def]
  rw [assemble_of_wellFormed (by simp [Line.wellFormed, hne, hbyte]), Line.words, hback]

theorem computeAdditions_length (bytes : List Byte) : (computeAdditions bytes).length = (bytes.length + 1) / 2 := by
  induction bytes using computeAdditions.induct with
  | case1 => rfl
  | case2 b => simp [computeAdditions]
  | case3 hi lo rest ih =>
    rw [computeAdditions, List.length_cons, ih, List.length_cons, List.length_cons]
    omega

theorem computeAdditions_getElem?_of_pair {bytes : List Byte} {k : Nat} {hi lo : Byte} (hhi : bytes[2 * k]? = some hi)
    (hlo : bytes[2 * k + 1]? = some lo) : (computeAdditions bytes)[k]? = some (.addw (hi ++ lo)) := by
  induction bytes using computeAdditions.induct generalizing k with
  | case1 => exact absurd hhi (by simp)
  | case2 b => exact absurd hlo (by simp)
  | case3 a b rest ih =>
    cases k with
    | zero =>
      obtain ⟨rfl, rfl⟩ : a = hi ∧ b = lo := by simpa using And.intro hhi hlo
      rfl
    | succ k => exact ih (by simpa [Nat.mul_succ] using hhi) (by simpa [Nat.mul_succ] using hlo)

theorem computeAdditions_getElem?_of_trailing {bytes : List Byte} {b : Byte} (hodd : bytes.length % 2 = 1)
    (hlast : bytes.getLast? = some b) : (computeAdditions bytes)[bytes.length / 2]? = some (.addt b) := by
  induction bytes using computeAdditions.induct with
  | case1 => exact absurd hodd (by simp)
  | case2 a =>
    obtain rfl : a = b := by simpa using hlast
    simp [computeAdditions]
  | case3 hi lo rest ih =>
    have hlen : (hi :: lo :: rest).length = rest.length + 2 := rfl
    have hrest : rest.length % 2 = 1 := by omega
    have hhalf : (hi :: lo :: rest).length / 2 = rest.length / 2 + 1 := by omega
    have hne : rest ≠ [] := by
      rintro rfl
      simp at hrest
    rw [hhalf, computeAdditions, List.getElem?_cons_succ]
    refine ih hrest ?_
    rwa [List.getLast?_cons_of_ne_nil (List.cons_ne_nil lo rest), List.getLast?_cons_of_ne_nil hne] at hlast

/-- The additions of `COMPUTE` add the words of its bytes (00_scope.md R8). -/
theorem computeAdditions_addends (bytes : List Byte) : (computeAdditions bytes).map addend = (wordsOf bytes).map some := by
  induction bytes using computeAdditions.induct with
  | case1 => rfl
  | case2 b => simp [computeAdditions, wordsOf, addend]
  | case3 hi lo rest ih =>
    simp only [computeAdditions, wordsOf, List.map_cons, addend, byte_append_toNat, ih]

theorem computeCommands_getElem? {bytes : List Byte} {k : Nat} {i : Instr}
    (h : (computeAdditions bytes)[k]? = some i) : (computeCommands bytes)[k + 1]? = some i := by
  have hk : k < (computeAdditions bytes).length := (List.getElem?_eq_some_iff.mp h).1
  rw [computeCommands, List.getElem?_cons_succ, List.getElem?_append_left hk, h]

/-! ### The run -/

theorem sum_wordsOf (bytes : List Byte) : (wordsOf bytes).sum = wsum bytes bytes.length := by
  rw [wsum, words, List.take_length]

/-- The state after the `CLR` of `COMPUTE`, as the additions find it. -/
theorem execAll_computeCommands (bytes : List Byte) (s : State) :
    execAll (computeCommands bytes) s =
      execAll (computeAdditions bytes ++ [.fin]) (respond codeOk 0 (clearRegs s)) :=
  execAll_cons_of_next (exec_clr s) _

theorem execAll_computeCommands_of_fits {bytes : List Byte} (hfits : wsum bytes bytes.length ≤ 0xFFFFFFFF) (s : State) :
    ∃ t, execAll (computeCommands bytes) s = .next t ∧
      t.sent.getLast? = some ⟨0, BitVec.ofNat 32 (csum bytes bytes.length)⟩ ∧
      t.acc = BitVec.ofNat 32 (fold (wsum bytes bytes.length)) ∧ t.err = 0 ∧ t.len = 0 ∧ t.idx = 0 := by
  have hacc : (respond codeOk 0 (clearRegs s)).acc.toNat + (wordsOf bytes).sum = wsum bytes bytes.length := by
    rw [sum_wordsOf, respond_acc, clearRegs_acc]
    exact Nat.zero_add _
  have hrun := execAll_additions_fin (s := respond codeOk 0 (clearRegs s)) (computeAdditions_addends bytes) rfl
    (hacc.trans_le hfits)
  refine ⟨_, (execAll_computeCommands bytes s).trans hrun, ?_, ?_, rfl, rfl, rfl⟩
  · rw [finishAndRespond_sent, List.getLast?_concat, complement16_foldAcc_eq_ofNat,
      added_acc_toNat (hacc.trans_le hfits), hacc]
    rfl
  · rw [finishAndRespond_acc, foldAcc_eq_ofNat, added_acc_toNat (hacc.trans_le hfits), hacc]

theorem execAll_computeCommands_of_exceeds {bytes : List Byte} (hexceeds : 0xFFFFFFFF < wsum bytes bytes.length)
    (s : State) : ∃ t, execAll (computeCommands bytes) s = .next t ∧ t.err = 3 := by
  obtain ⟨t, ht, herr⟩ := execAll_additions_of_exceeds (s := respond codeOk 0 (clearRegs s))
    (computeAdditions_addends bytes) rfl (by rw [sum_wordsOf]; omega)
  have hlatched : t.err ≠ 0 := by
    rw [herr]
    decide
  refine ⟨respond t.err 0 t, ?_, herr⟩
  rw [execAll_computeCommands, execAll_append_of_next ht, execAll_singleton, exec_fin, unlessLatched_of_latched hlatched]

/-- Settles O29: the expansion entry by entry; with the sum in range both runs leave the fold and answer the checksum. -/
theorem computeEqualsRun : Obligations.ComputeEqualsRun := by
  refine ⟨rfl, fun bytes s hne => ⟨assemble_compute_bytes hne, ?_, rfl, ?_,
    fun k hi lo hhi hlo => computeCommands_getElem? (computeAdditions_getElem?_of_pair hhi hlo),
    fun b hodd hlast => computeCommands_getElem? (computeAdditions_getElem?_of_trailing hodd hlast),
    fun hfits => ?_, fun hexceeds => execAll_computeCommands_of_exceeds hexceeds s⟩⟩
  · rw [computeCommands, List.length_cons, List.length_append, computeAdditions_length, List.length_singleton]
    omega
  · rw [computeCommands, ← List.cons_append, List.getLast?_concat]
  · obtain ⟨t, ht, hsent, hacc, herr, hlen, hidx⟩ := execAll_computeCommands_of_fits hfits s
    have hfold : fold (wsum bytes bytes.length) < 2 ^ 32 := by
      have hle := fold_le (a := wsum bytes bytes.length) (by omega)
      omega
    refine ⟨t, ht, hsent, by rw [hacc, BitVec.toNat_ofNat, Nat.mod_eq_of_lt hfold], herr, hlen, hidx, fun n hn => ?_⟩
    have hpos : 0 < n.toNat := hn ▸ List.length_pos_iff.mpr hne
    have hrun := runReturnsTheChecksum n { s with buf := Memory.ofBytes bytes } (ne_zero_of_lt_toNat hpos)
      (by rw [hn]; exact Nat.le_refl _) (by rw [Memory.ofBytes_bytes, hn]; exact hfits)
    rw [Memory.ofBytes_bytes, hn] at hrun
    exact ⟨_, hrun, by rw [hsent, List.getLast?_concat], hacc.symm⟩

end Sys2Proof.Machine
end
